-- ==== Sys2Proof/Word.lean ====
section
/-!
DEFINITION. The bit-vector widths of the nibble permutation unit (rules R6, R12, R43): everything here is
unsigned and is read with bit 0 as the least significant bit (rule R8).
-/

namespace Sys2Proof

/-- One 4-bit field of a packed array (R6 FIELD). -/
abbrev Nibble := BitVec 4

/-- One byte lane, and the width of the op field (R6 OPW, R10). -/
abbrev Byte := BitVec 8

/-- One 16-bit lane of the multiply-accumulate result (R10, R60). -/
abbrev Half := BitVec 16

/-- A packed nibble array or a packed index array: `src`, `idx` and `dst` (R6 WORD, R9). -/
abbrev Word := BitVec 64

/-- A value of the internal datapath (R6 VLEN, NLANES). -/
abbrev VReg := BitVec 128

/-- A whole request packet `REQ` (R43, R49). -/
abbrev ReqPacket := BitVec 136

/-- A whole response packet `RSP` (R44, R49). -/
abbrev RspPacket := BitVec 65

end Sys2Proof
end

