-- ==== Sys2Proof/Syntax.lean ====
section
/-!
DEFINITION. The operations of the unit, the requests and responses that its two channels carry, what decoding a
request can give, and the transitions of the transaction-level model.
-/

namespace Sys2Proof

/-- The operations, one constructor per row of the opcode table (R46). A reserved op code is no operation: it is
what decoding answers with `Decoded.rejected` (R47). -/
inductive Instr where
  /-- `PERM <src>, <idx>`: nibble permutation by the SIMD path (R71). -/
  | perm (src idx : Word)
  /-- `PERMREF <src>, <idx>`: nibble permutation by the reference path (R72). -/
  | permref (src idx : Word)
  deriving DecidableEq, Repr

/-- One request, the triple `(op, idx, src)` of the request channel (R21). -/
structure Request where
  op : Byte
  idx : Word
  src : Word
  deriving DecidableEq, Repr, Inhabited

/-- One response, the pair `(dst, err)` of the response channel (R22). -/
structure Response where
  dst : Word
  err : Bool
  deriving DecidableEq, Repr, Inhabited

/-- Why decoding finds no operation in a request. The unit still answers such a request (R73, R80). -/
inductive Rejection where
  /-- The op code is one of `0x02` to `0xFF` (R48). -/
  | reservedOp (op : Byte)
  deriving DecidableEq, Repr

/-- What decoding makes of a request: one of the two operations, or a rejection by name (R47). -/
inductive Decoded where
  | instr (i : Instr)
  | rejected (r : Rejection)
  deriving DecidableEq, Repr

/-- One transition of the transaction-level model: the three the outside world makes on the unit's inputs
(R98), the two the unit makes (R25, R26), and none at all, since no rule bounds how long an enabled step of the
unit waits (R96). -/
inductive Move where
  /-- A requester offers a request and holds it until it is accepted (R97 (b), R98). -/
  | offer (q : Request)
  /-- The host starts (`true`) or stops (`false`) being ready to take responses (R26, R98). -/
  | ready (level : Bool)
  /-- The environment asserts (`true`) or releases (`false`) the reset input (R93). -/
  | reset (level : Bool)
  /-- The unit takes its accept step, if enabled (R25). -/
  | accept
  /-- The unit takes its deliver step, if enabled (R26). -/
  | deliver
  /-- Nothing happens. -/
  | idle
  deriving DecidableEq, Repr, Inhabited

end Sys2Proof
end

