-- ==== Sys2Proof/Config.lean ====
section
/-!
DEFINITION. The build parameters of an instance (R6) and the free values: constants without a body, of which
nothing can be proved but their type.
-/

namespace Sys2Proof.Config

/-- The recombination an instance builds (R65). -/
inductive NarrowStrategy where
  /-- Multiply-accumulate and unsigned pack (R60, R61). -/
  | maddPack
  /-- Shift, OR and re-permute (R63). -/
  | shiftOrShuf
  deriving DecidableEq, Repr

/-- The parameters fixed when an instance is built (R6, R18). No request reads or changes them. -/
structure Build where
  /-- DEPTH: the most requests accepted and not yet answered (R6, R24). -/
  depth : Nat
  /-- NARROW_STRATEGY (R65). -/
  narrow : NarrowStrategy
  /-- VPERM_AVAILABLE (R66). -/
  vperm : Bool
  deriving DecidableEq, Repr

/-- Free value: DEPTH less one. The spec leaves DEPTH open as an integer `>= 1` (R6, D10). Log entry 7. -/
opaque depthPred : Nat

/-- The instance that `State.reset` is a state of: DEPTH is open; the two unobservable parameters have the
spec's defaults (R6, R65, R66). Log entry 7. -/
def build : Build := { depth := depthPred + 1, narrow := .maddPack, vperm := true }

/-- Free value: the 16-bit lane that the multiply-accumulate gives for an even and an odd byte that are not both
nibbles, which no request reaches (R60, D17). Log entry 8. -/
opaque maddOutside (even odd : Byte) : Half

/-- Free value: lanes 8 to 15 of the narrowed register `P` made from a register of 16-bit lanes, which the spec leaves
unspecified and nothing reads (R61). Log entry 9. -/
opaque packUpper (Mv : VReg) : Word

/-- Free value: the transition taken when the `k`-th free choice is made: what the outside world does, which of
two enabled steps the unit takes, and how long it waits (R13, R25, R83, R90, R96). Log entry 1. -/
opaque move (k : Nat) : Move

end Sys2Proof.Config
end

