-- ==== Sys2Proof/Machine/Operands.lean ====
section
/-!
DEFINITION. Fields and lanes: how a value is read field by field or lane by lane and put together again
(R8 to R11, R31, R32, R45), and unsigned saturation (R11).
-/

namespace Sys2Proof.Machine

/-- `nib(v, i)`: field `i` of a packed array, bits `[4i+3:4i]`, for `i` in `[0,15]` (R9, R45). -/
def nib (v : Word) (i : Nat) : Nibble := v.extractLsb' (4 * i) 4

/-- The value made of `n` parts of `w` bits, part `i` being `f i`, the first part least significant (R8, R31). -/
def packParts (w : Nat) : (n : Nat) → (Nat → BitVec w) → BitVec (w * n)
  | 0, _ => 0#0
  | n + 1, f => packParts w n (fun i => f (i + 1)) ++ f 0

/-- The packed array whose field `i` is `f i` for `i` in `[0,15]` (R9, R31). -/
def ofNibs (f : Nat → Nibble) : Word := packParts 4 16 f

/-- `lane(V, k)`: byte lane `k`, bits `[8k+7:8k]`, of a 128-bit or a 64-bit value (R10, R32). -/
def lane {n : Nat} (V : BitVec n) (k : Nat) : Byte := V.extractLsb' (8 * k) 8

/-- `lane16(V, k)`: the 16-bit lane `k`, bits `[16k+15:16k]` (R10, R32). -/
def lane16 (V : VReg) (k : Nat) : Half := V.extractLsb' (16 * k) 16

/-- `mk128(b0, ..., b15)` with `bk` given as `f k` (R10). -/
def mk128 (f : Nat → Byte) : VReg := packParts 8 16 f

/-- The 128-bit value whose 16-bit lane `k` is `f k` for `k` in `[0,7]` (R10, R60). -/
def ofHalves (f : Nat → Half) : VReg := packParts 16 8 f

/-- The 64-bit value whose byte lane `k` is `f k` for `k` in `[0,7]` (R10). -/
def ofBytes (f : Nat → Byte) : Word := packParts 8 8 f

/-- `sat_u8(x)`: `x` clamped to `[0,255]` (R11). -/
def satU8 (x : Int) : Byte :=
  if x < 0 then 0 else if 255 < x then 255 else BitVec.ofInt 8 x

end Sys2Proof.Machine
end

