-- ==== Sys2Proof/Machine/Datapath.lean ====
section
/-!
DEFINITION. The datapath: the stages of the SIMD path (R52 to R66), the reference loop (R68), and the contract that
both meet (R67).
-/

namespace Sys2Proof.Machine

/-- Load: the word in bits 63..0 of a vector register, zero above (R52). -/
def load (w : Word) : VReg := w.setWidth 128

/-- Shift: the whole register, logically right by 4 (R53). -/
def shift (R : VReg) : VReg := R >>> 4

/-- Interleave: the low eight lanes of `R` in the even lanes, those of `S` in the odd lanes (R54). -/
def interleave (R S : VReg) : VReg :=
  mk128 fun j => if j % 2 = 0 then lane R (j / 2) else lane S (j / 2)

/-- Mask: the high nibble of every lane cleared (R55). -/
def mask (I : VReg) : VReg := I &&& 0x0F0F0F0F0F0F0F0F0F0F0F0F0F0F0F0F

/-- `WIDEN(w)`: load, shift, interleave, mask (R56). -/
def widen (w : Word) : VReg :=
  let R := load w
  let S := shift R
  let I := interleave R S
  mask I

/-- One lane of the byte-permute: zero for an index byte with bit 7 set, else the table lane that its low four
bits name (R58, C4). -/
def bshufLane (T : VReg) (x : Byte) : Byte :=
  if x.getLsbD 7 then 0x00 else lane T (x.extractLsb' 0 4).toNat

/-- `BSHUF(T, X)`: the byte-permute of table `T` by index vector `X` (R58). -/
def bshuf (T X : VReg) : VReg := mk128 fun i => bshufLane T (lane X i)

/-- `C`: 1 in even lanes, 16 in odd lanes (R60). -/
def maddConst : VReg := mk128 fun j => if j % 2 = 0 then 1 else 16

/-- Lane `M[k]` of the multiply-accumulate: exact on its domain, where both bytes are nibbles, and a free value
outside it, which no request reaches (R60, D17). Log entry 8. -/
def maddLane (D : VReg) (k : Nat) : Half :=
  if lane D (2 * k) ≤ 15 ∧ lane D (2 * k + 1) ≤ 15 then
    BitVec.ofNat 16 ((lane D (2 * k)).toNat * (lane maddConst (2 * k)).toNat
      + (lane D (2 * k + 1)).toNat * (lane maddConst (2 * k + 1)).toNat)
  else Config.maddOutside (lane D (2 * k)) (lane D (2 * k + 1))

/-- `Mv`: the eight multiply-accumulate lanes in one register (R60). -/
def madd (D : VReg) : VReg := ofHalves (maddLane D)

/-- Lanes 0 to 7 of the narrowed register `P`: each 16-bit lane with unsigned saturation in one byte (R61, C1). -/
def packLow (Mv : VReg) : Word := ofBytes fun k => satU8 (lane16 Mv k).toNat

/-- `P`: the narrowed register, with the saturated bytes in lanes 0 to 7 and a free value in lanes 8 to 15, which are
unspecified (R20, R61). Log entry 9. -/
def pack (Mv : VReg) : VReg := Config.packUpper Mv ++ packLow Mv

/-- `NARROW_MADD(D) = P[63:0]` (R60, R61). It is written with lanes 0 to 7 alone, so that it evaluates on numerals,
which no value made from the free lanes of `P` does; that it is bits 63..0 of `P` is `narrowMadd_eq_pack` in
Laws/Datapath.lean. -/
def narrowMadd (D : VReg) : Word := packLow (madd D)

/-- `Xodd`: the odd lanes in its low half, `0x80` in its high half (R63, D20). -/
def xodd : VReg := mk128 fun k => if k < 8 then BitVec.ofNat 8 (2 * k + 1) else 0x80

/-- `NARROW_SHIFT(D)`: shift, OR and re-permute (R63). -/
def narrowShift (D : VReg) : Word :=
  let A := D <<< 4
  let B := D <<< 8
  let E := A ||| B
  (bshuf E xodd).extractLsb' 0 64

/-- `NARROW(D)`: the recombination the instance builds (R65). -/
def narrow : Config.NarrowStrategy → VReg → Word
  | .maddPack, D => narrowMadd D
  | .shiftOrShuf, D => narrowShift D

/-- One iteration of the reference loop: source field `idx[i]` ORed in at position `i` (R68). -/
def refStep (src idx acc : Word) (i : Nat) : Word :=
  let j := nib idx i
  let v := nib src j.toNat
  acc ||| (v.setWidth 64 <<< (4 * i))

/-- The reference loop with its iterations taken in a given order (R68, D21). -/
def refInOrder (order : List Nat) (src idx : Word) : Word := order.foldl (refStep src idx) 0

/-- `REF(src, idx)`: the reference loop, `i` from 0 to 15 (R68). -/
def ref (src idx : Word) : Word := refInOrder (List.range 16) src idx

/-- `SIMD(src, idx)` on an instance: the vector path where the vector permute is available, else the reference
loop (R66). -/
def simd (b : Config.Build) (src idx : Word) : Word :=
  if b.vperm then
    let Ws := widen src
    let Wi := widen idx
    let D := bshuf Ws Wi
    narrow b.narrow D
  else ref src idx

/-- `NPERM(src, idx)`: field `i` of the result is the source field that index field `i` names (R67). -/
def nperm (src idx : Word) : Word := ofNibs fun i => nib src (nib idx i).toNat

/-- `INV(p)`: field `k` is the first position at which `p` holds `k`, which for an index array with sixteen
distinct fields is the only one (R77). -/
def invIndex (p : Word) : Word :=
  ofNibs fun k => BitVec.ofNat 4 ((List.range 16).findIdx fun j => nib p j = BitVec.ofNat 4 k)

end Sys2Proof.Machine
end

