-- ==== Sys2Proof/WellFormed.lean ====
section
/-!
DEFINITION. Which operations, requests and instances are well formed.
-/

namespace Sys2Proof

/-- Every operand pair of both operations is legal: no bit of `src` or `idx` is reserved (R21, R45, R79). -/
def Instr.wf : Instr → Bool
  | .perm _ _ => true
  | .permref _ _ => true

/-- The request has an assigned op code (R46). A requester must not issue any other on purpose (R48, R97 (d));
the unit answers it all the same (R73). -/
def Request.wf (q : Request) : Bool := q.op.toNat < 2

/-- DEPTH is an integer `>= 1` (R6). -/
def Config.Build.wf (b : Build) : Bool := 1 ≤ b.depth

end Sys2Proof
end

