-- ==== Sys2Proof/Decode.lean ====
section
/-!
DEFINITION. The request and response packets (R43, R44), the decoder (R47), the encoder, and the pseudo-instructions
(R51).
-/

namespace Sys2Proof

/-- The request packet: `src` in bits 63..0, `idx` in bits 127..64, `op` in bits 135..128 (R43). -/
def Request.pack (q : Request) : ReqPacket := q.op ++ q.idx ++ q.src

/-- The request that a packet carries (R43). -/
def Request.unpack (p : ReqPacket) : Request where
  op := p.extractLsb' 128 8
  idx := p.extractLsb' 64 64
  src := p.extractLsb' 0 64

/-- The response packet: `dst` in bits 63..0, `err` in bit 64 (R44). -/
def Response.pack (r : Response) : RspPacket := BitVec.ofBool r.err ++ r.dst

/-- The response that a packet carries (R44). -/
def Response.unpack (p : RspPacket) : Response where
  dst := p.extractLsb' 0 64
  err := p.getLsbD 64

/-- The op code of `PERM` (R46). -/
def opPerm : Byte := 0x00

/-- The op code of `PERMREF` (R46). -/
def opPermref : Byte := 0x01

/-- `DECODE`: reads all 8 bits of `op` and nothing else to choose the operation (R47). -/
def decode (q : Request) : Decoded :=
  if q.op = opPerm then .instr (.perm q.src q.idx)
  else if q.op = opPermref then .instr (.permref q.src q.idx)
  else .rejected (.reservedOp q.op)

/-- Decoding of a whole packet (R43, R47). -/
def decodePacket (p : ReqPacket) : Decoded := decode (Request.unpack p)

/-- The request that invokes an operation (R71, R72). -/
def Instr.request : Instr → Request
  | .perm src idx => { op := opPerm, idx := idx, src := src }
  | .permref src idx => { op := opPermref, idx := idx, src := src }

/-- The encoder: the packet of the request that invokes an operation (R43, R46). -/
def encode (i : Instr) : ReqPacket := i.request.pack

/-- The packet whose low `nbits` bits are those of `w`, the others zero. -/
def packetOfTableWord (nbits w : Nat) : ReqPacket := BitVec.ofNat 136 (w % 2 ^ nbits)

/-- The operation read from a packet given as a number, bit 0 least significant. The unit has no byte order and
its packet is transferred whole (R30, R34), so the number is the packet. Log entry 16. -/
def decodeTableWord (nbits w : Nat) : Option Instr :=
  match decodePacket (packetOfTableWord nbits w) with
  | .instr i => some i
  | .rejected _ => none

/-- The index array whose field `i` is `i` (R8, R74). -/
def identityIndex : Word := 0xFEDCBA9876543210

/-- The index array with `k` in every field (R51, R75). -/
def constantIndex (k : Nibble) : Word := k.setWidth 64 * 0x1111111111111111

/-- `NIDENT <src>` (R51). -/
def Instr.nident (src : Word) : Instr := .perm src identityIndex

/-- `NBCAST <src>, k` (R51). -/
def Instr.nbcast (src : Word) (k : Nibble) : Instr := .perm src (constantIndex k)

/-- `NREV <src>` (R51). -/
def Instr.nrev (src : Word) : Instr := .perm src 0x0123456789ABCDEF

/-- `NROTR <src>` (R51). -/
def Instr.nrotr (src : Word) : Instr := .perm src 0x0FEDCBA987654321

end Sys2Proof
end

