-- ==== Sys2Proof/Machine/Flags.lean ====
section
/-!
DEFINITION. The unit has no status flags, condition codes or predicates (R17). The one bit a response carries
beside its result is `err`.
-/

namespace Sys2Proof.Machine

/-- The complete table of error indications: `err` is 0 for both operations and 1 for a reserved op code
(R22, R80). -/
def errOf : Decoded → Bool
  | .instr _ => false
  | .rejected (.reservedOp _) => true

end Sys2Proof.Machine
end

