-- ==== Sys2Proof/Machine/State.lean ====
section
/-!
DEFINITION. The state of the unit and of its two channels (R28), the reasons a step could stop, and the state at
reset (R93, R94).
-/

namespace Sys2Proof.Machine

/-- The reasons a step ends in a fault: none. The unit raises no exception, fault or trap (R79), so nothing raises
a value of this type; that is safe only because R79 says so. -/
inductive Fault where
  deriving DecidableEq, Repr

/-- The reasons a step is refused. -/
inductive Refusal where
  /-- Raised by an arm of `exec` whose operation has no meaning yet. No arm raises it. Safe: a run stops. -/
  | notModelled (mnemonic : String)
  deriving DecidableEq, Repr

/-- The state. `rst` and `inflight` are the spec's complete state of the unit (R28). The next three are the two
channels, on the outside of the unit. The last three are the model's own: what happens next, and the instance. -/
structure State where
  /-- The level of the reset input, driven from outside; `true` is asserted (R28, R93). -/
  rst : Bool
  /-- The requests accepted and not yet answered, oldest first (R24). -/
  inflight : List Request
  /-- The request channel: the requests offered and not yet accepted, in the order in which the outside merges
  them, each held by its requester (R13, R21, R97 (b)). Log entry 3. -/
  offered : List Request
  /-- The response channel: every response delivered so far, oldest first (R22, R99). Log entry 4. -/
  delivered : List Response
  /-- Whether the host is ready to take a response (R26, R98). Log entry 5. -/
  ready : Bool
  /-- The transitions already settled, the next one first. Log entry 1. -/
  schedule : List Move
  /-- How many steps were taken: the argument of the next free choice. Log entry 1. -/
  tick : Nat
  /-- The build parameters of the instance (R6, R18), which no step changes. Log entry 7. -/
  build : Config.Build
  deriving DecidableEq, Repr

/-- The state at reset: nothing in flight, and the reset input asserted as at power-on (R28, R93, R94). The
values of the other fields are the model's: log entries 1, 3, 4, 5 and 7. -/
def State.reset : State where
  rst := true
  inflight := []
  offered := []
  delivered := []
  ready := true
  schedule := []
  tick := 0
  build := Config.build

end Sys2Proof.Machine
end

