-- ==== Sys2Proof/Machine/Ops.lean ====
section
/-!
DEFINITION. The shared operations on the state: what the outside does to the channels and the reset input, the
unit's accept step, delivering a response, and what every step does first. There is no taking of an exception and
no return from one: the unit has neither (R79, R84, R85).
-/

namespace Sys2Proof.Machine

/-- A requester offers `q`, behind the requests already waiting (R25, R97 (b)). Log entries 3 and 13. -/
def State.offer (q : Request) (s : State) : State := { s with offered := s.offered ++ [q] }

/-- The host says whether it is ready to take responses (R26, R98). -/
def State.setReady (level : Bool) (s : State) : State := { s with ready := level }

/-- While reset is asserted the unit holds no request (R93). -/
def State.holdReset (s : State) : State := { s with inflight := if s.rst then [] else s.inflight }

/-- The environment drives the reset input to a level. Asserting it discards every request in flight; responses
already delivered stay delivered (R93). -/
def State.driveReset (level : Bool) (s : State) : State := State.holdReset { s with rst := level }

/-- Whether the accept step is enabled: reset released, a request offered, and fewer than DEPTH in flight
(R25). -/
def State.acceptEnabled (s : State) : Bool :=
  !s.rst && !s.offered.isEmpty && decide (s.inflight.length < s.build.depth)

/-- The accept step: the request now on the channel goes to the end of the queue. Where the step is not enabled
nothing happens and the request stays with its requester (R25, R97 (b)). -/
def State.accept (s : State) : State :=
  if s.acceptEnabled then
    { s with inflight := s.inflight ++ s.offered.take 1, offered := s.offered.drop 1 }
  else s

/-- Whether the deliver step is enabled: reset released, the host ready, and a request in flight (R26). -/
def State.deliverEnabled (s : State) : Bool := !s.rst && s.ready && !s.inflight.isEmpty

/-- `respond(dst, err)`: the response goes out on the response channel, and the request it answers leaves the
head of the queue (R23, R26, R34). -/
def State.respond (r : Response) (s : State) : State :=
  { s with inflight := s.inflight.tail, delivered := s.delivered ++ [r] }

/-- The transition that the next step makes: the first of the settled ones, else a free value. Log entry 1. -/
def State.nextMove (s : State) : Move := s.schedule.head?.getD (Config.move s.tick)

/-- What every step does before its transition: the choice is used up, and an asserted reset keeps the queue
empty (R93). -/
def State.beginStep (s : State) : State :=
  State.holdReset { s with schedule := s.schedule.tail, tick := s.tick + 1 }

/-- The state with `q` as the request that the next step answers: `q` at the head of the queue, the reset
released, the host ready, and the deliver step next. Log entry 2. -/
def State.placeRequest (q : Request) (s : State) : State :=
  { s with rst := false, ready := true, inflight := q :: s.inflight.tail, schedule := .deliver :: s.schedule }

end Sys2Proof.Machine
end

