-- ==== Sys2Proof/Machine/Permute.lean ====
section
/-!
DEFINITION. The unit's one family, the nibble permutation: the meaning of `PERM` (R71), of `PERMREF` (R72), of a
reserved op code (R73), and `EXEC` as a function from a request to its response (R70).
-/

namespace Sys2Proof.Machine

/-- `PERM`: `respond(SIMD(src, idx), 0)`, and nothing else (R71). -/
def execPerm (src idx : Word) (s : State) : Host.Outcome State Fault Refusal :=
  .next (s.respond { dst := simd s.build src idx, err := errOf (.instr (.perm src idx)) })

/-- `PERMREF`: `respond(REF(src, idx), 0)`, and nothing else (R72). -/
def execPermref (src idx : Word) (s : State) : Host.Outcome State Fault Refusal :=
  .next (s.respond { dst := ref src idx, err := errOf (.instr (.permref src idx)) })

/-- A reserved op code: `respond(0, 1)`, whatever the operands, and nothing else (R48, R73). It is answered in its
turn; it is no trap (R79). -/
def execReserved (r : Rejection) (s : State) : Host.Outcome State Fault Refusal :=
  .next (s.respond { dst := 0, err := errOf (.rejected r) })

/-- `EXEC(op, idx, src)`: the response of a request on an instance (R70). -/
def answer (b : Config.Build) (q : Request) : Response :=
  match decode q with
  | .instr (.perm src idx) => { dst := simd b src idx, err := false }
  | .instr (.permref src idx) => { dst := ref src idx, err := false }
  | .rejected (.reservedOp _) => { dst := 0, err := true }

end Sys2Proof.Machine
end

