-- ==== Sys2Proof/Machine/Dispatch.lean ====
section
/-!
DEFINITION. One arm per operation of the opcode table (R70, R71, R72).
-/

namespace Sys2Proof.Machine

def exec (i : Instr) (s : State) : Host.Outcome State Fault Refusal :=
  match i with
  | .perm src idx => Sys2Proof.Machine.execPerm src idx s
  | .permref src idx => Sys2Proof.Machine.execPermref src idx s

end Sys2Proof.Machine
end

