-- ==== Sys2Proof/Machine/Moves.lean ====
section
/-!
DEFINITION. Answering a request, the deliver step (R26), and what each transition does.
-/

namespace Sys2Proof.Machine

/-- Decodes a request and runs what it decodes to (R26, R70). -/
def runRequest (q : Request) (s : State) : Host.Outcome State Fault Refusal :=
  match decode q with
  | .instr i => exec i s
  | .rejected r => execReserved r s

/-- The deliver step: the request at the head of the queue is answered. Where the step is not enabled nothing
happens (R26). -/
def deliver (s : State) : Host.Outcome State Fault Refusal :=
  if s.deliverEnabled then
    match s.inflight with
    | q :: _ => runRequest q s
    | [] => .next s
  else .next s

/-- One transition (R25, R26, R93, R98). -/
def takeMove (m : Move) (s : State) : Host.Outcome State Fault Refusal :=
  match m with
  | .offer q => .next (s.offer q)
  | .ready level => .next (s.setReady level)
  | .reset level => .next (s.driveReset level)
  | .accept => .next s.accept
  | .deliver => deliver s
  | .idle => .next s

end Sys2Proof.Machine
end

