-- ==== Sys2Proof/Machine/Step.lean ====
section
/-!
DEFINITION. One step of the unit and its surroundings, and the state whose next step runs a given packet.
-/

namespace Sys2Proof.Machine

/-- One step: the next transition, from the state in which its choice is used up. -/
def step (s : State) : Host.Outcome State Fault Refusal := takeMove s.nextMove s.beginStep

/-- The packet given as a number (`nbits` bits, bit 0 least significant) placed where the next step finds the
request it answers. Log entries 2 and 16. -/
def State.withFetchWord (s : State) (nbits w : Nat) : State :=
  s.placeRequest (Request.unpack (packetOfTableWord nbits w))

end Sys2Proof.Machine
end

