-- ==== Sys2Proof/Safety.lean ====
section
/-!
DEFINITION. The terms in which claims are stated: the invariant of a run, runs under a given schedule, what a run
owes its requesters, fairness (R96), requester programs and the end of a run (R99).
-/

namespace Sys2Proof.Machine

/-- What holds at reset and after every step: DEPTH is at least one (R6), at most DEPTH requests are in flight
(R24), and none while reset is asserted (R93). -/
abbrev State.Inv (s : State) : Prop :=
  s.build.wf = true ∧ s.inflight.length ≤ s.build.depth ∧ (s.rst = true → s.inflight = [])

/-- Every lane is in `[0,15]`: the domain of the two recombinations (R57, R60, R64). -/
abbrev NibbleLanes (D : VReg) : Prop := ∀ i < 16, (lane D i).toNat ≤ 15

/-- The sixteen fields of an index array are distinct, so that they are a permutation of `0..15` (R77). -/
abbrev DistinctFields (p : Word) : Prop := ∀ i < 16, ∀ j < 16, nib p i = nib p j → i = j

/-- The responses owed to a list of requests, in order (R38). -/
def answers (b : Config.Build) (qs : List Request) : List Response := qs.map (answer b)

/-- Running exactly the transitions `ms` from `s` ends in `t`. Every finite run is one of these. -/
def State.Runs (s : State) (ms : List Move) (t : State) : Prop :=
  Host.Core.run Sys2Proof.core ms.length { s with schedule := ms } = .next t

/-- The requests offered in a list of transitions, in order. -/
def offersOf (ms : List Move) : List Request :=
  ms.flatMap fun m => match m with
    | .offer q => [q]
    | .ready _ | .reset _ | .accept | .deliver | .idle => []

/-- Reset stays released and the host stays ready throughout. That R96's premise "the requesters take every response
delivered" is read as readiness at every transition is the model's choice (log entry 5); `HostTakes` is the other
reading, for a host whose readiness comes and goes (R98). -/
abbrev Steady (ms : List Move) : Prop := Move.reset true ∉ ms ∧ Move.ready false ∉ ms

/-- The first `n` transitions of an endless schedule. -/
def firstMoves (σ : Nat → Move) (n : Nat) : List Move := (List.range n).map σ

/-- Weak fairness of a step of the unit along an endless schedule: from no point on is the step enabled for ever
and never taken (R96). -/
def WeaklyFair (s : State) (σ : Nat → Move) (enabled : State → Bool) (m : Move) : Prop :=
  ∀ N, ∃ n ≥ N, σ n = m ∨ ∃ t, s.Runs (firstMoves σ n) t ∧ enabled t = false

/-- Along an endless schedule no response waits for ever: again and again either nothing is in flight or the unit
takes its deliver step while the host is ready. It is R96's weak fairness of the deliver step and its premise that
the requesters take every response delivered, for a host that takes them at its own pace (R98). That the two are
read so together is the model's choice, log entry 5. -/
def HostTakes (s : State) (σ : Nat → Move) : Prop :=
  ∀ N, ∃ n ≥ N, ∃ t, s.Runs (firstMoves σ n) t ∧ (t.inflight = [] ∨ σ n = .deliver ∧ t.ready = true)

/-- Every offered request was accepted and every accepted request was answered: the second and the third condition
of R99. -/
abbrev State.Drained (s : State) : Prop := s.offered = [] ∧ s.inflight = []

/-! ### Requester programs. They are outside the unit (R16), and no field of State holds one. Log entry 19. -/

/-- What a requester program can see: a response delivered to it, or that reset was asserted (R97 (c)). -/
inductive Sight where
  | response (r : Response)
  | reset
  deriving DecidableEq, Repr

/-- A requester program: the sequence of its requests, where a later request may depend on the responses to
earlier ones (R16, R97 (a)). It offers a request and goes on, or waits for what it sees next, or is finished. -/
inductive Program where
  | finished
  | offer (q : Request) (rest : Program)
  | await (next : Sight → Program)

/-- What is left of a program after it sees `e`. The offers that it makes before it waits are still to come. -/
def Program.see : Program → Sight → Program
  | .finished, _ => .finished
  | .offer q rest, e => .offer q (rest.see e)
  | .await next, e => next e

/-- The program has no request left to offer, whatever it may still see: the first condition of R99. -/
def Program.NothingLeft : Program → Prop
  | .finished => True
  | .offer _ _ => False
  | .await next => ∀ e, (next e).NothingLeft

/-- What a transition from `s` to `t` shows the program: reset being asserted, and each response delivered. -/
def sights (s t : State) : List Sight :=
  (if !s.rst && t.rst then [.reset] else []) ++ (t.delivered.drop s.delivered.length).map .response

/-- `p.Runs s ms p' t`: the transitions `ms` take the unit from `s` to `t`, their offers are the ones that `p` makes,
and `p'` is what is left of `p` (R99). -/
inductive Program.Runs : Program → State → List Move → Program → State → Prop where
  | start {p : Program} {s t : State} : s.Runs [] t → p.Runs s [] p t
  | offer {q : Request} {p p' : Program} {s u t : State} {ms : List Move} :
      s.Runs [.offer q] u → p.Runs u ms p' t → (Program.offer q p).Runs s (.offer q :: ms) p' t
  | other {m : Move} {p p' : Program} {s u t : State} {ms : List Move} :
      offersOf [m] = [] → s.Runs [m] u → ((sights s u).foldl Program.see p).Runs u ms p' t → p.Runs s (m :: ms) p' t

/-- The run of a requester program is over, where `p` is what is left of the program: no request is left to offer,
every offered request was accepted, and every accepted request was answered. The final observation is `delivered`
(R99). -/
abbrev State.Over (s : State) (p : Program) : Prop := p.NothingLeft ∧ s.Drained

end Sys2Proof.Machine
end

