-- ==== Sys2Proof/Certificates/Slice0/Obligations.lean ====
section
/-!
DEFINITION. What is claimed about the model. Each statement's docstring names the rule it formalises. Where the
next state of a step is written out, `schedule := s.schedule.tail` and `tick := s.tick + 1` are the using up of the
model's own choice (log entry 1), and every field not named is unchanged.
-/

open Sys2Proof Sys2Proof.Machine

/-! ### Packets and decoding -/

/-- R43: where each field of a request packet lies, that the packet is the number `op * 2^128 + idx * 2^64 + src`,
and that a packet and its request determine each other. -/
def Obligations.RequestPacketLayout : Prop :=
  (∀ q : Request, q.pack.toNat = q.op.toNat * 2 ^ 128 + q.idx.toNat * 2 ^ 64 + q.src.toNat ∧
    Request.unpack q.pack = q) ∧
  ∀ p : ReqPacket, (Request.unpack p).pack = p ∧
    (Request.unpack p).src.toNat = p.toNat % 2 ^ 64 ∧
    (Request.unpack p).idx.toNat = p.toNat / 2 ^ 64 % 2 ^ 64 ∧
    (Request.unpack p).op.toNat = p.toNat / 2 ^ 128

/-- R44: where each field of a response packet lies, that the packet is the number `err * 2^64 + dst`, and what
`err` says of the op code. -/
def Obligations.ResponsePacketLayout : Prop :=
  (∀ r : Response, r.pack.toNat = (if r.err then 1 else 0) * 2 ^ 64 + r.dst.toNat ∧ Response.unpack r.pack = r) ∧
  (∀ p : RspPacket, (Response.unpack p).pack = p) ∧
  ∀ (b : Config.Build) (q : Request),
    ((answer b q).err = false ↔ q.op = 0x00 ∨ q.op = 0x01) ∧ ((answer b q).err = true ↔ 2 ≤ q.op.toNat)

/-- R47: each of the 256 values of `op` decodes to one of three outcomes, whatever the operands. -/
def Obligations.DecodeReadsOpOnly : Prop :=
  ∀ idx src : Word,
    decode { op := 0x00, idx := idx, src := src } = .instr (.perm src idx) ∧
    decode { op := 0x01, idx := idx, src := src } = .instr (.permref src idx) ∧
    ∀ op : Byte, 2 ≤ op.toNat → decode { op := op, idx := idx, src := src } = .rejected (.reservedOp op)

/-- Packets written out from R43 and R46 decode to the operation they stand for. -/
def Obligations.WrittenPacketsDecode : Prop :=
  decodeTableWord 136 0x00B74E05C2FD83169A9E3779B97F4A7C15 =
    some (.perm 0x9E3779B97F4A7C15 0xB74E05C2FD83169A) ∧
  decodeTableWord 136 0x01FEDCBA9876543210DEADBEEFCAFEF00D =
    some (.permref 0xDEADBEEFCAFEF00D 0xFEDCBA9876543210) ∧
  decodeTableWord 136 0x02FFFFFFFFFFFFFFFF0000000000000001 = none

/-- Decoding the packet of a well-formed operation gives that operation, with every operand at every value. -/
def Obligations.DecodeInvertsEncode : Prop :=
  ∀ i : Instr, i.wf = true → decodePacket (encode i) = .instr i

/-- An operation has one packet only: every packet that decodes to it is the one the encoder writes. -/
def Obligations.EncodeInvertsDecode : Prop :=
  ∀ (p : ReqPacket) (i : Instr), decodePacket p = .instr i → encode i = p

/-- R51: each pseudo-instruction's expansion and result. -/
def Obligations.PseudoInstructions : Prop :=
  ∀ (src : Word) (s : State),
    (Instr.nident src = .perm src 0xFEDCBA9876543210 ∧
      exec (Instr.nident src) s = .next (s.respond { dst := src, err := false })) ∧
    (∀ k : Nibble, Instr.nbcast src k = .perm src (k.setWidth 64 * 0x1111111111111111) ∧
      ∃ dst, exec (Instr.nbcast src k) s = .next (s.respond { dst := dst, err := false }) ∧
        ∀ i < 16, nib dst i = nib src k.toNat) ∧
    (Instr.nrev src = .perm src 0x0123456789ABCDEF ∧
      ∃ dst, exec (Instr.nrev src) s = .next (s.respond { dst := dst, err := false }) ∧
        ∀ i < 16, nib dst i = nib src (15 - i)) ∧
    (Instr.nrotr src = .perm src 0x0FEDCBA987654321 ∧
      ∃ dst, exec (Instr.nrotr src) s = .next (s.respond { dst := dst, err := false }) ∧
        dst = src.rotateRight 4 ∧ ∀ i < 16, nib dst i = nib src ((i + 1) % 16))

/-! ### Fields and lanes -/

/-- R31: the order of the fields in a packed array, and the two fields in each of its bytes. -/
def Obligations.FieldOrder : Prop :=
  ∀ v : Word,
    (∀ i < 16, (nib v i).toNat = v.toNat / 16 ^ i % 16) ∧
    ∀ k < 8, (lane v k).extractLsb' 0 4 = nib v (2 * k) ∧ (lane v k).extractLsb' 4 4 = nib v (2 * k + 1)

/-- R32: the order of the lanes of a vector register, where a loaded word lies, and the two bytes of a 16-bit
lane. -/
def Obligations.LaneOrder : Prop :=
  (∀ V : VReg, (∀ k < 16, (lane V k).toNat = V.toNat / 256 ^ k % 256) ∧
    ∀ k < 8, (lane16 V k).toNat = 256 * (lane V (2 * k + 1)).toNat + (lane V (2 * k)).toNat) ∧
  ∀ w : Word, (load w).extractLsb' 0 64 = w ∧ ∀ k < 8, lane (load w) k = lane w k

/-! ### The stages of the SIMD path -/

/-- From R52 and R53: the upper half of a loaded register is zero, and where the shift takes each half of each
lane from. -/
def Obligations.ShiftMovesNibblesDown : Prop :=
  (∀ w : Word, ∀ k < 16, 8 ≤ k → lane (load w) k = 0) ∧
  ∀ R : VReg, ∀ k < 16,
    (lane (shift R) k).extractLsb' 0 4 = (lane R k).extractLsb' 4 4 ∧
    (lane (shift R) k).extractLsb' 4 4 = if k < 15 then (lane R (k + 1)).extractLsb' 0 4 else 0

/-- R54 and R55: what the interleave puts in each lane and does not read, and what the mask clears and keeps. -/
def Obligations.InterleaveThenMask : Prop :=
  (∀ R S : VReg, ∀ k < 8,
    lane (interleave R S) (2 * k) = lane R k ∧ lane (interleave R S) (2 * k + 1) = lane S k) ∧
  (∀ R S R' S' : VReg, (∀ k < 8, lane R k = lane R' k ∧ lane S k = lane S' k) → interleave R S = interleave R' S') ∧
  (∀ I : VReg, ∀ k < 16,
    (lane (mask I) k).extractLsb' 4 4 = 0 ∧ (lane (mask I) k).extractLsb' 0 4 = (lane I k).extractLsb' 0 4) ∧
  interleave 0x00000000000000009E3779B97F4A7C15 0x000000000000000009E3779B97F4A7C1 =
    0x099EE33777799BB9977FF44AA77CC115 ∧
  mask 0x099EE33777799BB9977FF44AA77CC115 = 0x090E030707090B09070F040A070C0105

/-- From R52 and R53: neither the upper half of the loaded register nor the granularity of the shift can be seen
after the mask. -/
def Obligations.MaskHidesUnreadBits : Prop :=
  (∀ R : VReg, mask (interleave R (shift R)) = widen (R.extractLsb' 0 64)) ∧
  ∀ R S : VReg, (∀ k < 8, (lane S k).extractLsb' 0 4 = (lane R k).extractLsb' 4 4) →
    mask (interleave R S) = mask (interleave R (shift R))

/-- R57: lane `i` of a widened word is its field `i`, zero-extended. -/
def Obligations.WidenedLanesAreFields : Prop :=
  (∀ w : Word, ∀ i < 16, lane (widen w) i = (nib w i).setWidth 8 ∧ (lane (widen w) i).toNat ≤ 15) ∧
  widen 0xFEDCBA9876543210 = 0x0F0E0D0C0B0A09080706050403020100

/-- R58: each lane of the byte-permute, that the zeroing branch is never taken within `PERM`, and the example. -/
def Obligations.ByteShuffleLanes : Prop :=
  (∀ T X : VReg, ∀ i < 16,
    lane (bshuf T X) i = if 128 ≤ (lane X i).toNat then 0 else lane T ((lane X i).toNat % 16)) ∧
  (∀ idx : Word, ∀ i < 16, (lane (widen idx) i).toNat < 128 ∧ (lane (widen idx) i).toNat / 16 = 0) ∧
  bshuf 0x0F0E0D0C0B0A09080706050403020100 0x0F0F0F0F0F0F0F0F35058FFF00107F80 =
    0x0F0F0F0F0F0F0F0F0505000000000F00

/-- R59: each lane of the permutation stage. -/
def Obligations.PermutationStage : Prop :=
  (∀ src idx : Word, ∀ i < 16,
    lane (bshuf (widen src) (widen idx)) i = (nib src (nib idx i).toNat).setWidth 8 ∧
    (lane (bshuf (widen src) (widen idx)) i).toNat ≤ 15) ∧
  bshuf (widen 0x9E3779B97F4A7C15) (widen 0xB74E05C2FD83169A) = 0x07070A0E0504070C09030907010F0B09

/-- From R60: on its domain the multiply-accumulate is exact and stays below 256. Nothing is said outside the
domain, where the value is free (log entry 8). -/
def Obligations.MultiplyAccumulateExact : Prop :=
  ∀ D : VReg, NibbleLanes D → ∀ k < 8,
    (lane16 (madd D) k).toNat = (lane D (2 * k)).toNat + 16 * (lane D (2 * k + 1)).toNat ∧
    (lane16 (madd D) k).toNat ≤ 255

/-- From R61: the narrowing saturates without sign, is the identity on what the datapath gives it, and the corner
case and the example. -/
def Obligations.NarrowingSaturatesUnsigned : Prop :=
  (∀ Mv : VReg, ∀ k < 8, (lane (packLow Mv) k).toNat = min 255 (lane16 Mv k).toNat) ∧
  (∀ D : VReg, NibbleLanes D → ∀ k < 8, (lane (narrowMadd D) k).toNat = (lane16 (madd D) k).toNat) ∧
  narrowMadd 0x0F0F0F0F0F0F0F0F0F0F0F0F0F0F0F0F = 0xFFFFFFFFFFFFFFFF ∧
  narrowMadd 0x07070A0E0504070C09030907010F0B09 = 0x77AE547C93971FB9

/-- R62: on its domain the multiply-accumulate recombination undoes the widening. -/
def Obligations.NarrowMaddFields : Prop :=
  (∀ D : VReg, NibbleLanes D → ∀ i < 16, (nib (narrowMadd D) i).setWidth 8 = lane D i) ∧
  narrowMadd 0x0F0E0D0C0B0A09080706050403020100 = 0xFEDCBA9876543210

/-- From R63: on its domain each byte of the alternative recombination is `16 * odd + even`, and the example. -/
def Obligations.NarrowShiftBytes : Prop :=
  (∀ D : VReg, NibbleLanes D → ∀ k < 8,
    (lane (narrowShift D) k).toNat = 16 * (lane D (2 * k + 1)).toNat + (lane D (2 * k)).toNat) ∧
  narrowShift 0x07070A0E0504070C09030907010F0B09 = 0x77AE547C93971FB9

/-- R64: the two recombinations agree on their whole domain. -/
def Obligations.RecombinationsAgree : Prop :=
  ∀ D : VReg, NibbleLanes D → narrowShift D = narrowMadd D ∧
    ∀ i < 16, (nib (narrowShift D) i).setWidth 8 = lane D i ∧ (nib (narrowMadd D) i).setWidth 8 = lane D i

/-! ### The permutation -/

/-- R67: the contract determines the result, field by field, and the example. -/
def Obligations.PermutationContract : Prop :=
  (∀ src idx : Word, (∀ i < 16, nib (nperm src idx) i = nib src (nib idx i).toNat) ∧
    ∀ dst : Word, (∀ i < 16, nib dst i = nib src (nib idx i).toNat) → dst = nperm src idx) ∧
  nperm 0x9E3779B97F4A7C15 0xB74E05C2FD83169A = 0x77AE547C93971FB9

/-- R68: the reference loop meets the contract, and so does the loop with its iterations in any order. -/
def Obligations.ReferenceLoopAnyOrder : Prop :=
  ∀ src idx : Word, ref src idx = nperm src idx ∧
    ∀ order : List Nat, order.Perm (List.range 16) → refInOrder order src idx = nperm src idx

/-- R69: the SIMD path, the reference path and the contract agree on all operands, for every recombination built
and with or without the vector permute. -/
def Obligations.SimdEqualsReference : Prop :=
  ∀ (b : Config.Build) (src idx : Word), simd b src idx = ref src idx ∧ ref src idx = nperm src idx

/-- R74: the identity index. -/
def Obligations.IdentityIndex : Prop :=
  (∀ i < 16, (nib identityIndex i).toNat = i) ∧ identityIndex = 0xFEDCBA9876543210 ∧
  ∀ src idx : Word, (∀ i < 16, (nib idx i).toNat = i) → idx = identityIndex ∧ nperm src idx = src

/-- R75: a constant index broadcasts one field. -/
def Obligations.ConstantIndexBroadcasts : Prop :=
  ∀ (src idx : Word) (k : Nibble), (∀ i < 16, nib idx i = k) →
    idx = k.setWidth 64 * 0x1111111111111111 ∧
    (∀ i < 16, nib (nperm src idx) i = nib src k.toNat) ∧
    nperm src idx = (nib src k.toNat).setWidth 64 * 0x1111111111111111

/-- R76: a field of the result depends on no bit of `idx` outside the index field of the same number. -/
def Obligations.IndexLocality : Prop :=
  ∀ (src idx : Word), ∀ i < 16,
    (∀ idx' : Word, nib idx' i = nib idx i → nib (nperm src idx') i = nib (nperm src idx) i) ∧
    ∀ b < 64, ¬ (4 * i ≤ b ∧ b ≤ 4 * i + 3) → nib (nperm src (idx ^^^ BitVec.twoPow 64 b)) i = nib (nperm src idx) i

/-- R77: an index array with distinct fields has an inverse, and both round trips give back the source. -/
def Obligations.InverseRoundTrip : Prop :=
  (∀ p : Word, DistinctFields p →
    (∀ j < 16, (nib (invIndex p) (nib p j).toNat).toNat = j) ∧
    ∀ src : Word, nperm (nperm src p) (invIndex p) = src ∧ nperm (nperm src (invIndex p)) p = src) ∧
  invIndex 0x0FEDCBA987654321 = 0xEDCBA9876543210F

/-- R78: two permutations fold into one index array. -/
def Obligations.PermutationsCompose : Prop :=
  ∀ src a b : Word, nperm (nperm src a) b = nperm src (nperm a b) ∧
    ∀ i < 16, nib (nperm (nperm src a) b) i = nib src (nib a (nib b i).toNat).toNat

/-! ### The operations -/

/-- R71: `PERM` completes in every state, with its whole frame: the response is delivered, the request leaves the
queue, and every other field is unchanged. Then its encoding and corner cases. -/
def Obligations.PermCompletes : Prop :=
  (∀ (src idx : Word) (s : State),
    exec (.perm src idx) s = .next { s with
      inflight := s.inflight.tail
      delivered := s.delivered ++ [{ dst := nperm src idx, err := false }] } ∧
    simd s.build src idx = nperm src idx ∧
    (Instr.perm src idx).request = { op := 0x00, idx := idx, src := src }) ∧
  (∀ idx : Word, nperm 0 idx = 0 ∧ nperm 0xFFFFFFFFFFFFFFFF idx = 0xFFFFFFFFFFFFFFFF) ∧
  (∀ src : Word, ∀ i < 16,
    nib (nperm src 0) i = nib src 0 ∧ nib (nperm src 0xFFFFFFFFFFFFFFFF) i = nib src 15) ∧
  (∀ src idx : Word, ∀ i < 16, nib (nperm src idx) i = nib src (nib idx i).toNat) ∧
  (∀ src idx : Word, (∀ i < 16, (lane (widen idx) i).toNat < 128) ∧
    ∀ k < 8, (lane16 (madd (bshuf (widen src) (widen idx))) k).toNat ≤ 255) ∧
  nperm 0x9E3779B97F4A7C15 0xB74E05C2FD83169A = 0x77AE547C93971FB9

/-- R72: `PERMREF` completes in every state, with its whole frame, and gives the response of `PERM`. -/
def Obligations.PermrefCompletes : Prop :=
  (∀ (src idx : Word) (s : State),
    exec (.permref src idx) s = .next { s with
      inflight := s.inflight.tail
      delivered := s.delivered ++ [{ dst := nperm src idx, err := false }] } ∧
    ref src idx = nperm src idx ∧
    exec (.permref src idx) s = exec (.perm src idx) s ∧
    (Instr.permref src idx).request = { op := 0x01, idx := idx, src := src }) ∧
  ref 0x9E3779B97F4A7C15 0xB74E05C2FD83169A = 0x77AE547C93971FB9

/-- R73: a reserved op code is answered in its turn with `(0, 1)`, whatever the operands; nothing else changes, and
the answers around it are not changed either. -/
def Obligations.ReservedOpAnswered : Prop :=
  ∀ (s : State) (q : Request), 2 ≤ q.op.toNat → s.rst = false → s.ready = true →
    (∀ rest, s.inflight = q :: rest → s.nextMove = .deliver →
      step s = .next { s with
        schedule := s.schedule.tail
        tick := s.tick + 1
        inflight := rest
        delivered := s.delivered ++ [{ dst := 0, err := true }] }) ∧
    ∀ q₁ q₂ rest, s.inflight = q₁ :: q :: q₂ :: rest →
      ∃ t, s.Runs [.deliver, .deliver, .deliver] t ∧ t.inflight = rest ∧
        t.delivered = s.delivered ++ [answer s.build q₁, { dst := 0, err := true }, answer s.build q₂]

/-- R70: `EXEC`, by the op code; both operations may be taken as the contract. -/
def Obligations.ExecFunction : Prop :=
  ∀ (b : Config.Build) (idx src : Word),
    answer b { op := 0x00, idx := idx, src := src } = { dst := simd b src idx, err := false } ∧
    answer b { op := 0x01, idx := idx, src := src } = { dst := ref src idx, err := false } ∧
    simd b src idx = nperm src idx ∧ ref src idx = nperm src idx ∧
    ∀ op : Byte, 2 ≤ op.toNat → answer b { op := op, idx := idx, src := src } = { dst := 0, err := true }

/-! ### The steps of the unit -/

/-- A step whose transition is an enabled deliver step runs the operation that the oldest request decodes to,
after the model's own choice is used up. -/
def Obligations.StepRunsDecodedRequest : Prop :=
  ∀ (s : State) (q : Request) (rest : List Request) (i : Instr),
    s.rst = false → s.ready = true → s.nextMove = .deliver → s.inflight = q :: rest →
    decode q = .instr i → i.wf = true →
    step s = exec i { s with schedule := s.schedule.tail, tick := s.tick + 1 }

/-- R26: the deliver step when enabled; when reset is asserted, the host is not ready, or nothing is in flight, it is
held: no response is delivered, and without a reset nothing leaves the queue. -/
def Obligations.DeliverStep : Prop :=
  ∀ s : State, s.nextMove = .deliver →
    (∀ q rest, s.rst = false → s.ready = true → s.inflight = q :: rest →
      step s = .next { s with
        schedule := s.schedule.tail
        tick := s.tick + 1
        inflight := rest
        delivered := s.delivered ++ [answer s.build q] }) ∧
    (s.rst = true ∨ s.ready = false ∨ s.inflight = [] →
      ∃ t, step s = .next t ∧ t.delivered = s.delivered ∧ (s.rst = false → t.inflight = s.inflight))

/-- From R25: the accept step when enabled; when reset is asserted, the queue is full or nothing is offered, nothing is
accepted and every offered request still waits; and the unit may leave an offered request waiting. That of several
waiting requests the step takes the first and leaves the rest waiting in their order is the model's choice, log
entry 3. -/
def Obligations.AcceptStep : Prop :=
  ∀ s : State,
    (s.nextMove = .accept →
      (∀ q rest, s.rst = false → s.inflight.length < s.build.depth → s.offered = q :: rest →
        step s = .next { s with
          schedule := s.schedule.tail
          tick := s.tick + 1
          inflight := s.inflight ++ [q]
          offered := rest }) ∧
      (s.rst = true ∨ s.build.depth ≤ s.inflight.length ∨ s.offered = [] →
        ∃ t, step s = .next t ∧ t.offered = s.offered ∧ (s.rst = false → t.inflight = s.inflight))) ∧
    (s.nextMove = .idle →
      ∃ t, step s = .next t ∧ t.offered = s.offered ∧ (s.rst = false → t.inflight = s.inflight))

/-- The model's choice, log entry 12: a transition of the unit that is not enabled, and the idle transition, change
nothing but what an asserted reset empties and the model's own choice. -/
def Obligations.DisabledTransitionsChangeNothing : Prop :=
  ∀ s : State,
    (s.nextMove = .deliver ∧ s.deliverEnabled = false ∨ s.nextMove = .accept ∧ s.acceptEnabled = false ∨
      s.nextMove = .idle) →
    step s = .next { s with
      schedule := s.schedule.tail
      tick := s.tick + 1
      inflight := if s.rst then [] else s.inflight }

/-- From R93: asserting reset discards what is in flight and takes back no response; while it stays asserted nothing
is accepted or delivered; on release nothing is in flight; power-on counts as an assertion. That `State.reset` is the
state at power-on is the model's reading, log entry 6. -/
def Obligations.ResetInput : Prop :=
  (∀ s : State, s.nextMove = .reset true →
    step s = .next { s with
      schedule := s.schedule.tail
      tick := s.tick + 1
      rst := true
      inflight := [] }) ∧
  (∀ s : State, s.rst = true → s.nextMove ≠ .reset false →
    ∃ t, step s = .next t ∧ t.rst = true ∧ t.inflight = [] ∧ t.delivered = s.delivered ∧
      s.offered <+: t.offered) ∧
  (∀ s : State, s.rst = true → s.nextMove = .reset false →
    step s = .next { s with
      schedule := s.schedule.tail
      tick := s.tick + 1
      rst := false
      inflight := [] }) ∧
  State.reset.rst = true

/-- From R98: the host's other two transitions change only its own side. That an offered request waits behind those
offered before it is the model's choice, log entry 3. -/
def Obligations.HostTransitions : Prop :=
  ∀ s : State, s.rst = false →
    (∀ q, s.nextMove = .offer q →
      step s = .next { s with
        schedule := s.schedule.tail
        tick := s.tick + 1
        offered := s.offered ++ [q] }) ∧
    ∀ level, s.nextMove = .ready level →
      step s = .next { s with
        schedule := s.schedule.tail
        tick := s.tick + 1
        ready := level }

/-- R27: the response to a request is the same whatever else differs between two states: the other requests, the
instance, the time. -/
def Obligations.ResponseOfRequestAlone : Prop :=
  ∀ (s s' : State) (q : Request) (rest rest' : List Request),
    s.rst = false → s.ready = true → s.nextMove = .deliver → s.inflight = q :: rest →
    s'.rst = false → s'.ready = true → s'.nextMove = .deliver → s'.inflight = q :: rest' →
    ∃ t t' r, step s = .next t ∧ step s' = .next t' ∧
      t.delivered = s.delivered ++ [r] ∧ t'.delivered = s'.delivered ++ [r]

/-- From R83: when an accept and a deliver step are both enabled, either order ends in the same state.
That the request accepted is the first of those waiting is the model's choice, log entry 3. -/
def Obligations.AcceptAndDeliverCommute : Prop :=
  ∀ (s : State) (q h : Request) (qs rest : List Request),
    s.rst = false → s.ready = true → s.inflight = h :: rest → s.inflight.length < s.build.depth →
    s.offered = q :: qs →
    ∃ t, s.Runs [.accept, .deliver] t ∧ s.Runs [.deliver, .accept] t ∧
      t.inflight = rest ++ [q] ∧ t.offered = qs ∧ t.delivered = s.delivered ++ [answer s.build h]

/-- From R79: no step ends in a fault or a refusal. -/
def Obligations.EveryStepAnswersNext : Prop :=
  ∀ s : State, ∃ t, step s = .next t

/-- From R18 and R93: no step changes the build parameters, and no step takes back a response or delivers more
than one. -/
def Obligations.StepKeepsBuildAndResponses : Prop :=
  ∀ s t : State, step s = .next t →
    t.build = s.build ∧ ∃ rs, t.delivered = s.delivered ++ rs ∧ rs.length ≤ 1

/-! ### Reset, the invariant, and whole runs -/

/-- From R28 and R94: nothing is in flight at reset, and the reset input is asserted. That the spec's value for
the input is taken to be its level at power-on is log entry 6. -/
def Obligations.ResetStateValues : Prop :=
  State.reset.inflight = [] ∧ State.reset.rst = true

/-- The invariant holds at reset. The instance that `State.reset` carries is the model's choice, log entry 7. -/
def Obligations.InvariantAtReset : Prop := State.reset.Inv

/-- From R6, R24 and R93: every step keeps the invariant. -/
def Obligations.StepKeepsInvariant : Prop :=
  ∀ s t : State, s.Inv → step s = .next t → t.Inv

/-- From R38: in any run without a reset, the responses delivered and those still owed to the requests in flight are
exactly the answers to the requests accepted, once each and in the order of acceptance; the requests not accepted
still wait, in the order offered. The number accepted is `k`. That offered requests wait in one list, in the order of
the offers, and are accepted in that order is the model's choice, log entry 3. -/
def Obligations.ResponsesInOrderExactlyOnce : Prop :=
  ∀ (s : State) (ms : List Move), s.rst = false → Move.reset true ∉ ms →
    ∃ t k, s.Runs ms t ∧ k ≤ (s.offered ++ offersOf ms).length ∧
      t.offered = (s.offered ++ offersOf ms).drop k ∧
      t.delivered ++ answers s.build t.inflight =
        s.delivered ++ answers s.build (s.inflight ++ (s.offered ++ offersOf ms).take k)

/-- From R99 and R100: what is observed in a run without a reset that ends with nothing waiting and nothing in flight is
fixed by the requests offered; when each step was taken, and how the host's readiness came and went, cannot be seen
in it. That the answers follow the order
of the offers, none overtaken and none withdrawn, is the model's choice, log entry 3; R99 leaves the merge order
open. -/
def Obligations.FinalObservationFixed : Prop :=
  ∀ (s t t' : State) (ms ms' : List Move), s.rst = false →
    Move.reset true ∉ ms → Move.reset true ∉ ms' → offersOf ms = offersOf ms' →
    s.Runs ms t → s.Runs ms' t' → t.Drained → t'.Drained →
    t.delivered = s.delivered ++ answers s.build (s.inflight ++ s.offered ++ offersOf ms) ∧
    t'.delivered = t.delivered

/-- From R97 (b): a full queue that delivers nothing accepts nothing, and every offered request still waits. That
they wait in the order of the offers is the model's choice, log entry 3. -/
def Obligations.HoldWhenFull : Prop :=
  ∀ (s : State) (ms : List Move), s.rst = false → s.build.depth ≤ s.inflight.length →
    Move.deliver ∉ ms → Move.reset true ∉ ms →
    ∃ t, s.Runs ms t ∧ t.inflight = s.inflight ∧ t.offered = s.offered ++ offersOf ms ∧
      t.delivered = s.delivered

/-- From R98: while the host is not ready nothing is delivered; without a reset nothing in flight is lost. -/
def Obligations.HoldWhileHostNotReady : Prop :=
  ∀ (s : State) (ms : List Move), s.ready = false → Move.ready true ∉ ms →
    ∃ t, s.Runs ms t ∧ t.delivered = s.delivered ∧
      (s.rst = false → Move.reset true ∉ ms → s.inflight <+: t.inflight)

/-- R95: from any state in which reset is asserted, the first request may be offered in the step right after
release, and its response is `EXEC` of it. -/
def Obligations.FirstRequestAfterRelease : Prop :=
  ∀ (s : State) (q : Request), s.rst = true → s.ready = true → s.offered = [] → s.build.wf = true →
    ∃ t, s.Runs [.reset false, .offer q, .accept, .deliver] t ∧
      t.delivered = s.delivered ++ [answer s.build q] ∧ t.inflight = [] ∧ t.offered = []

/-- From R26: as many deliver transitions as there are requests in flight answer all of them, whatever else
happens in between, while reset stays released and the host stays ready. That the host takes responses by being
ready throughout is one reading of the hold, log entry 5. -/
def Obligations.DeliveriesDrainTheQueue : Prop :=
  ∀ (s : State) (ms : List Move), s.rst = false → s.ready = true → Steady ms →
    s.inflight.length ≤ ms.count .deliver →
    ∃ t, s.Runs ms t ∧ s.delivered ++ answers s.build s.inflight <+: t.delivered

/-- From R96: under weak fairness of the accept and the deliver step, while reset stays released and the host stays
ready, every request in flight at the start, every request then waiting, and every request offered in the first `N`
transitions is at last accepted and answered. That they are answered in the order of the list in which they wait is
the model's choice, log entry 3; so is the reading of the requesters' taking every response as readiness at every
transition, log entry 5. -/
def Obligations.ProgressUnderWeakFairness : Prop :=
  ∀ (s : State) (σ : Nat → Move), s.Inv → s.rst = false → s.ready = true →
    (∀ n, Steady (firstMoves σ n)) →
    WeaklyFair s σ State.deliverEnabled .deliver → WeaklyFair s σ State.acceptEnabled .accept →
    ∀ N, ∃ n ≥ N, ∃ t, s.Runs (firstMoves σ n) t ∧
      s.delivered ++ answers s.build (s.inflight ++ s.offered ++ offersOf (firstMoves σ N)) <+: t.delivered

/-- From R96 and R98: while reset stays released, a host whose readiness comes and goes has the same progress, as long
as no response waits for ever and the accept step is weakly fair. That R96's premises are read so together
(`HostTakes`) is the model's choice, log entry 5; the order of the answers is log entry 3. -/
def Obligations.ProgressAtTheHostsPace : Prop :=
  ∀ (s : State) (σ : Nat → Move), s.Inv → s.rst = false → (∀ n, σ n ≠ .reset true) → HostTakes s σ →
    WeaklyFair s σ State.acceptEnabled .accept →
    ∀ N, ∃ n ≥ N, ∃ t, s.Runs (firstMoves σ n) t ∧
      s.delivered ++ answers s.build (s.inflight ++ s.offered ++ offersOf (firstMoves σ N)) <+: t.delivered

/-- From R99: all runs of one requester program without a reset that are over made the same offers and have the same
final observation, the answers to those offers, though each request may depend on earlier responses. What a program
is, and that it merges its offers itself, is the model's choice, log entry 19; the order of the answers is log
entry 3. -/
def Obligations.ProgramObservationFixed : Prop :=
  ∀ (p p₁ p₂ : Program) (s t₁ t₂ : State) (ms₁ ms₂ : List Move), s.rst = false →
    Move.reset true ∉ ms₁ → Move.reset true ∉ ms₂ →
    p.Runs s ms₁ p₁ t₁ → p.Runs s ms₂ p₂ t₂ → t₁.Over p₁ → t₂.Over p₂ →
    offersOf ms₁ = offersOf ms₂ ∧ t₁.delivered = t₂.delivered ∧
      t₁.delivered = s.delivered ++ answers s.build (s.inflight ++ s.offered ++ offersOf ms₁)

/-- From R96 and R99: from every state with reset released and the host ready, every requester program has a run
without a reset after which every offered request was accepted and answered and the program makes no further offer
by itself: it is finished, and its run is over, or it waits for more responses than it asked for. What a program is
is the model's choice, log entry 19. -/
def Obligations.ProgramRunsToItsEnd : Prop :=
  ∀ (p : Program) (s : State), s.Inv → s.rst = false → s.ready = true →
    ∃ ms p' t, p.Runs s ms p' t ∧ Move.reset true ∉ ms ∧ t.Drained ∧
      (p' = .finished ∧ t.Over p' ∨ ∃ next, p' = .await next)
end

