-- ==== Sys2Proof/Laws/Operands.lean ====
section
/-!
SUPPORT. Reading back what was put together, field by field and lane by lane; values that agree in every field or
lane; saturation.
-/

namespace Sys2Proof.Machine

@[simp] theorem nib_getLsbD (v : Word) (i j : Nat) :
    (nib v i).getLsbD j = (decide (j < 4) && v.getLsbD (4 * i + j)) := by
  simp [nib]

@[simp] theorem lane_getLsbD {n : Nat} (V : BitVec n) (k j : Nat) :
    (lane V k).getLsbD j = (decide (j < 8) && V.getLsbD (8 * k + j)) := by
  simp [lane]

@[simp] theorem lane16_getLsbD (V : VReg) (k j : Nat) :
    (lane16 V k).getLsbD j = (decide (j < 16) && V.getLsbD (16 * k + j)) := by
  simp [lane16]

theorem packParts_getLsbD {w n : Nat} (f : Nat → BitVec w) {i j : Nat} (hi : i < n) (hj : j < w) :
    (packParts w n f).getLsbD (w * i + j) = (f i).getLsbD j := by
  induction n generalizing f i with
  | zero => omega
  | succ n ih =>
    show (packParts w n (fun i => f (i + 1)) ++ f 0).getLsbD (w * i + j) = _
    rw [BitVec.getLsbD_append]
    cases i with
    | zero => simp [hj]
    | succ i =>
      have h : w * (i + 1) + j = w * i + j + w := by rw [Nat.mul_add]; omega
      rw [h, if_neg (by omega), Nat.add_sub_cancel]
      exact ih (fun i => f (i + 1)) (by omega)

/-- Part `i` of what was put together is `f i`. -/
theorem extractLsb'_packParts {w n : Nat} (f : Nat → BitVec w) {i : Nat} (hi : i < n) :
    (packParts w n f).extractLsb' (w * i) w = f i := by
  apply BitVec.eq_of_getLsbD_eq
  intro j hj
  simp [hj, packParts_getLsbD f hi hj]

theorem nib_ofNibs (f : Nat → Nibble) {i : Nat} (hi : i < 16) : nib (ofNibs f) i = f i :=
  extractLsb'_packParts f hi

theorem lane_mk128 (f : Nat → Byte) {k : Nat} (hk : k < 16) : lane (mk128 f) k = f k :=
  extractLsb'_packParts f hk

theorem lane_ofBytes (f : Nat → Byte) {k : Nat} (hk : k < 8) : lane (ofBytes f) k = f k :=
  extractLsb'_packParts f hk

theorem lane16_ofHalves (f : Nat → Half) {k : Nat} (hk : k < 8) : lane16 (ofHalves f) k = f k :=
  extractLsb'_packParts f hk

/-- Two packed arrays with the same sixteen fields are equal. -/
theorem eq_of_nib_eq {v w : Word} (h : ∀ i < 16, nib v i = nib w i) : v = w := by
  apply BitVec.eq_of_getLsbD_eq
  intro k hk
  have hb := congrArg (·.getLsbD (k % 4)) (h (k / 4) (by omega))
  simp only [nib_getLsbD, Nat.div_add_mod, Nat.mod_lt k (show 0 < 4 by omega)] at hb
  simpa using hb

/-- Two vector registers with the same sixteen lanes are equal. -/
theorem eq_of_lane_eq {V W : VReg} (h : ∀ k < 16, lane V k = lane W k) : V = W := by
  apply BitVec.eq_of_getLsbD_eq
  intro k hk
  have hb := congrArg (·.getLsbD (k % 8)) (h (k / 8) (by omega))
  simp only [lane_getLsbD, Nat.div_add_mod, Nat.mod_lt k (show 0 < 8 by omega)] at hb
  simpa using hb

/-- A byte of a packed array holds two fields, the lower-numbered one in its low half. -/
theorem lane_word (v : Word) (k : Nat) : lane v k = nib v (2 * k + 1) ++ nib v (2 * k) := by
  apply BitVec.eq_of_getLsbD_eq
  intro j hj
  rw [BitVec.getLsbD_append]
  by_cases h : j < 4
  · simp only [lane_getLsbD, nib_getLsbD, h, hj, show 8 * k + j = 4 * (2 * k) + j by omega, if_true]
  · simp only [lane_getLsbD, nib_getLsbD, h, hj, show j - 4 < 4 by omega, if_false,
      show 8 * k + j = 4 * (2 * k + 1) + (j - 4) by omega]

theorem lane_toNat {n : Nat} (V : BitVec n) (k : Nat) : (lane V k).toNat = V.toNat / 2 ^ (8 * k) % 256 := by
  simp [lane, BitVec.extractLsb'_toNat, Nat.shiftRight_eq_div_pow]

theorem nib_toNat (v : Word) (i : Nat) : (nib v i).toNat = v.toNat / 2 ^ (4 * i) % 16 := by
  simp [nib, BitVec.extractLsb'_toNat, Nat.shiftRight_eq_div_pow]

/-- Within the byte range saturation changes nothing. -/
theorem satU8_of_le {n : Nat} (h : n ≤ 255) : (satU8 n).toNat = n := by
  unfold satU8
  rw [if_neg (by omega), if_neg (by omega)]
  simp
  omega

/-- Above the byte range saturation gives the largest byte, not the largest signed one. -/
theorem satU8_of_gt {x : Int} (h : 255 < x) : satU8 x = 255 := by
  unfold satU8
  rw [if_neg (by omega), if_pos h]

theorem satU8_of_neg {x : Int} (h : x < 0) : satU8 x = 0 := by
  unfold satU8
  rw [if_pos h]

end Sys2Proof.Machine
end

