-- ==== Sys2Proof/Laws/Datapath.lean ====
section
/-!
SUPPORT. Each datapath stage seen lane by lane, and one iteration of the reference loop seen bit by bit.
-/

namespace Sys2Proof.Machine

@[simp] theorem load_getLsbD (w : Word) (j : Nat) : (load w).getLsbD j = w.getLsbD j := by
  by_cases h : j < 128
  · simp [load, h]
  · rw [BitVec.getLsbD_of_ge (load w) j (by omega), BitVec.getLsbD_of_ge w j (by omega)]

theorem shift_getLsbD (R : VReg) (j : Nat) : (shift R).getLsbD j = R.getLsbD (j + 4) := by
  simp [shift, Nat.add_comm]

theorem lane_interleave (R S : VReg) {j : Nat} (h : j < 16) :
    lane (interleave R S) j = if j % 2 = 0 then lane R (j / 2) else lane S (j / 2) :=
  lane_mk128 _ h

theorem mask_lane_const {k : Nat} (h : k < 16) : lane (0x0F0F0F0F0F0F0F0F0F0F0F0F0F0F0F0F : VReg) k = 0x0F := by
  interval_cases k <;> rfl

theorem lane_and (V W : VReg) (k : Nat) : lane (V &&& W) k = lane V k &&& lane W k := by
  simp [lane, BitVec.extractLsb'_and]

theorem lane_or (V W : VReg) (k : Nat) : lane (V ||| W) k = lane V k ||| lane W k := by
  simp [lane, BitVec.extractLsb'_or]

theorem lane_mask (I : VReg) {k : Nat} (h : k < 16) : lane (mask I) k = lane I k &&& 0x0F := by
  rw [mask, lane_and, mask_lane_const h]

theorem lane_maddConst {k : Nat} (h : k < 16) : lane maddConst k = if k % 2 = 0 then 1 else 16 :=
  lane_mk128 _ h

theorem lane16_madd (D : VReg) {k : Nat} (h : k < 8) : lane16 (madd D) k = maddLane D k :=
  lane16_ofHalves _ h

/-- Each of lanes 0 to 7 of `P` is one 16-bit lane, saturated. -/
theorem lane_pack (Mv : VReg) {k : Nat} (h : k < 8) : lane (pack Mv) k = satU8 (lane16 Mv k).toNat := by
  rw [← lane_ofBytes (fun k => satU8 (lane16 Mv k).toNat) h]
  apply BitVec.eq_of_getLsbD_eq
  intro j hj
  rw [lane_getLsbD, lane_getLsbD, pack, BitVec.getLsbD_append, if_pos (by omega)]
  rfl

/-- The multiply-accumulate recombination is bits 63..0 of `P`, whatever the free lanes above hold. -/
theorem narrowMadd_eq_pack (D : VReg) : narrowMadd D = (pack (madd D)).extractLsb' 0 64 := by
  apply BitVec.eq_of_getLsbD_eq
  intro j hj
  rw [BitVec.getLsbD_extractLsb', pack, BitVec.getLsbD_append, if_pos (by omega), Nat.zero_add, decide_eq_true hj,
    Bool.true_and]
  rfl

theorem lane_xodd {k : Nat} (h : k < 16) : lane xodd k = if k < 8 then BitVec.ofNat 8 (2 * k + 1) else 0x80 :=
  lane_mk128 _ h

/-- One iteration of the reference loop sets the bits of field `i` from the source field and keeps every other
bit. -/
theorem refStep_getLsbD (src idx acc : Word) {i b : Nat} (hb : b < 64) :
    (refStep src idx acc i).getLsbD b =
      (acc.getLsbD b || (decide (4 * i ≤ b ∧ b < 4 * i + 4) && (nib src (nib idx i).toNat).getLsbD (b - 4 * i))) := by
  by_cases h1 : 4 * i ≤ b
  · by_cases h2 : b < 4 * i + 4
    · simp [refStep, hb, h1, h2, show ¬ b < 4 * i by omega, show b - 4 * i < 4 by omega]
    · simp [refStep, hb, h1, h2, show ¬ b < 4 * i by omega, show ¬ b - 4 * i < 4 by omega]
  · simp [refStep, hb, h1, show b < 4 * i by omega]

end Sys2Proof.Machine
end

