-- ==== Sys2Proof/Laws/State.lean ====
section
/-!
SUPPORT. What each operation on the state leaves in each field.
-/

namespace Sys2Proof.Machine

@[simp] theorem State.offer_rst (q : Request) (s : State) : (s.offer q).rst = s.rst := rfl
@[simp] theorem State.offer_inflight (q : Request) (s : State) : (s.offer q).inflight = s.inflight := rfl
@[simp] theorem State.offer_offered (q : Request) (s : State) : (s.offer q).offered = s.offered ++ [q] := rfl
@[simp] theorem State.offer_delivered (q : Request) (s : State) : (s.offer q).delivered = s.delivered := rfl
@[simp] theorem State.offer_ready (q : Request) (s : State) : (s.offer q).ready = s.ready := rfl
@[simp] theorem State.offer_schedule (q : Request) (s : State) : (s.offer q).schedule = s.schedule := rfl
@[simp] theorem State.offer_tick (q : Request) (s : State) : (s.offer q).tick = s.tick := rfl
@[simp] theorem State.offer_build (q : Request) (s : State) : (s.offer q).build = s.build := rfl

@[simp] theorem State.setReady_rst (b : Bool) (s : State) : (s.setReady b).rst = s.rst := rfl
@[simp] theorem State.setReady_inflight (b : Bool) (s : State) : (s.setReady b).inflight = s.inflight := rfl
@[simp] theorem State.setReady_offered (b : Bool) (s : State) : (s.setReady b).offered = s.offered := rfl
@[simp] theorem State.setReady_delivered (b : Bool) (s : State) : (s.setReady b).delivered = s.delivered := rfl
@[simp] theorem State.setReady_ready (b : Bool) (s : State) : (s.setReady b).ready = b := rfl
@[simp] theorem State.setReady_schedule (b : Bool) (s : State) : (s.setReady b).schedule = s.schedule := rfl
@[simp] theorem State.setReady_tick (b : Bool) (s : State) : (s.setReady b).tick = s.tick := rfl
@[simp] theorem State.setReady_build (b : Bool) (s : State) : (s.setReady b).build = s.build := rfl

@[simp] theorem State.holdReset_rst (s : State) : (s.holdReset).rst = s.rst := rfl
@[simp] theorem State.holdReset_inflight (s : State) : (s.holdReset).inflight = if s.rst then [] else s.inflight := rfl
@[simp] theorem State.holdReset_offered (s : State) : (s.holdReset).offered = s.offered := rfl
@[simp] theorem State.holdReset_delivered (s : State) : (s.holdReset).delivered = s.delivered := rfl
@[simp] theorem State.holdReset_ready (s : State) : (s.holdReset).ready = s.ready := rfl
@[simp] theorem State.holdReset_schedule (s : State) : (s.holdReset).schedule = s.schedule := rfl
@[simp] theorem State.holdReset_tick (s : State) : (s.holdReset).tick = s.tick := rfl
@[simp] theorem State.holdReset_build (s : State) : (s.holdReset).build = s.build := rfl

@[simp] theorem State.driveReset_rst (b : Bool) (s : State) : (s.driveReset b).rst = b := rfl
@[simp] theorem State.driveReset_inflight (b : Bool) (s : State) : (s.driveReset b).inflight = if b then [] else s.inflight := rfl
@[simp] theorem State.driveReset_offered (b : Bool) (s : State) : (s.driveReset b).offered = s.offered := rfl
@[simp] theorem State.driveReset_delivered (b : Bool) (s : State) : (s.driveReset b).delivered = s.delivered := rfl
@[simp] theorem State.driveReset_ready (b : Bool) (s : State) : (s.driveReset b).ready = s.ready := rfl
@[simp] theorem State.driveReset_schedule (b : Bool) (s : State) : (s.driveReset b).schedule = s.schedule := rfl
@[simp] theorem State.driveReset_tick (b : Bool) (s : State) : (s.driveReset b).tick = s.tick := rfl
@[simp] theorem State.driveReset_build (b : Bool) (s : State) : (s.driveReset b).build = s.build := rfl

@[simp] theorem State.respond_rst (r : Response) (s : State) : (s.respond r).rst = s.rst := rfl
@[simp] theorem State.respond_inflight (r : Response) (s : State) : (s.respond r).inflight = s.inflight.tail := rfl
@[simp] theorem State.respond_offered (r : Response) (s : State) : (s.respond r).offered = s.offered := rfl
@[simp] theorem State.respond_delivered (r : Response) (s : State) : (s.respond r).delivered = s.delivered ++ [r] := rfl
@[simp] theorem State.respond_ready (r : Response) (s : State) : (s.respond r).ready = s.ready := rfl
@[simp] theorem State.respond_schedule (r : Response) (s : State) : (s.respond r).schedule = s.schedule := rfl
@[simp] theorem State.respond_tick (r : Response) (s : State) : (s.respond r).tick = s.tick := rfl
@[simp] theorem State.respond_build (r : Response) (s : State) : (s.respond r).build = s.build := rfl

@[simp] theorem State.beginStep_rst (s : State) : (s.beginStep).rst = s.rst := rfl
@[simp] theorem State.beginStep_inflight (s : State) : (s.beginStep).inflight = if s.rst then [] else s.inflight := rfl
@[simp] theorem State.beginStep_offered (s : State) : (s.beginStep).offered = s.offered := rfl
@[simp] theorem State.beginStep_delivered (s : State) : (s.beginStep).delivered = s.delivered := rfl
@[simp] theorem State.beginStep_ready (s : State) : (s.beginStep).ready = s.ready := rfl
@[simp] theorem State.beginStep_schedule (s : State) : (s.beginStep).schedule = s.schedule.tail := rfl
@[simp] theorem State.beginStep_tick (s : State) : (s.beginStep).tick = s.tick + 1 := rfl
@[simp] theorem State.beginStep_build (s : State) : (s.beginStep).build = s.build := rfl

@[simp] theorem State.placeRequest_rst (q : Request) (s : State) : (s.placeRequest q).rst = false := rfl
@[simp] theorem State.placeRequest_inflight (q : Request) (s : State) : (s.placeRequest q).inflight = q :: s.inflight.tail := rfl
@[simp] theorem State.placeRequest_offered (q : Request) (s : State) : (s.placeRequest q).offered = s.offered := rfl
@[simp] theorem State.placeRequest_delivered (q : Request) (s : State) : (s.placeRequest q).delivered = s.delivered := rfl
@[simp] theorem State.placeRequest_ready (q : Request) (s : State) : (s.placeRequest q).ready = true := rfl
@[simp] theorem State.placeRequest_schedule (q : Request) (s : State) : (s.placeRequest q).schedule = .deliver :: s.schedule := rfl
@[simp] theorem State.placeRequest_tick (q : Request) (s : State) : (s.placeRequest q).tick = s.tick := rfl
@[simp] theorem State.placeRequest_build (q : Request) (s : State) : (s.placeRequest q).build = s.build := rfl

@[simp] theorem State.accept_rst (s : State) : s.accept.rst = s.rst := by
  unfold State.accept; split <;> rfl
@[simp] theorem State.accept_inflight (s : State) : s.accept.inflight = if s.acceptEnabled then s.inflight ++ s.offered.take 1 else s.inflight := by
  unfold State.accept; split <;> rfl
@[simp] theorem State.accept_offered (s : State) : s.accept.offered = if s.acceptEnabled then s.offered.drop 1 else s.offered := by
  unfold State.accept; split <;> rfl
@[simp] theorem State.accept_delivered (s : State) : s.accept.delivered = s.delivered := by
  unfold State.accept; split <;> rfl
@[simp] theorem State.accept_ready (s : State) : s.accept.ready = s.ready := by
  unfold State.accept; split <;> rfl
@[simp] theorem State.accept_schedule (s : State) : s.accept.schedule = s.schedule := by
  unfold State.accept; split <;> rfl
@[simp] theorem State.accept_tick (s : State) : s.accept.tick = s.tick := by
  unfold State.accept; split <;> rfl
@[simp] theorem State.accept_build (s : State) : s.accept.build = s.build := by
  unfold State.accept; split <;> rfl

@[simp] theorem State.reset_inflight : State.reset.inflight = [] := rfl
@[simp] theorem State.reset_rst : State.reset.rst = true := rfl
@[simp] theorem State.reset_build : State.reset.build = Config.build := rfl

/-- With reset released, a step begins with nothing but the choice used up. -/
theorem State.beginStep_of_released {s : State} (h : s.rst = false) :
    s.beginStep = { s with schedule := s.schedule.tail, tick := s.tick + 1 } := by
  simp [State.beginStep, State.holdReset, h]

@[simp] theorem State.nextMove_cons {s : State} {m : Move} {ms : List Move} (h : s.schedule = m :: ms) :
    s.nextMove = m := by
  simp [State.nextMove, h]

end Sys2Proof.Machine
end

