-- ==== Sys2Proof/Laws/Ops.lean ====
section
/-!
SUPPORT. Once for each shared operation, everything it can do: accepting, answering, delivering, one transition and
one step. What is proved about the machine cites these and does not unfold the operations.
-/

namespace Sys2Proof.Machine

theorem State.acceptEnabled_iff (s : State) :
    s.acceptEnabled = true ↔ s.rst = false ∧ s.offered ≠ [] ∧ s.inflight.length < s.build.depth := by
  simp [State.acceptEnabled, and_assoc]

theorem State.deliverEnabled_iff (s : State) :
    s.deliverEnabled = true ↔ s.rst = false ∧ s.ready = true ∧ s.inflight ≠ [] := by
  simp [State.deliverEnabled, and_assoc]

/-- The accept step takes the request at the front of the channel, or changes nothing. -/
theorem State.accept_cases (s : State) :
    (∃ q qs, s.rst = false ∧ s.inflight.length < s.build.depth ∧ s.offered = q :: qs ∧
      s.accept = { s with inflight := s.inflight ++ [q], offered := qs }) ∨
    (s.acceptEnabled = false ∧ s.accept = s) := by
  cases h : s.acceptEnabled with
  | false => exact .inr ⟨rfl, by simp [State.accept, h]⟩
  | true =>
    obtain ⟨hr, ho, hd⟩ := s.acceptEnabled_iff.mp h
    obtain ⟨q, qs, hq⟩ := List.exists_cons_of_ne_nil ho
    exact .inl ⟨q, qs, hr, hd, hq, by simp [State.accept, h, hq]⟩

/-- Answering a request delivers exactly the response that `EXEC` gives it. -/
theorem runRequest_eq (q : Request) (s : State) : runRequest q s = .next (s.respond (answer s.build q)) := by
  unfold runRequest answer
  rcases decode q with (_ | _) | ⟨_⟩ <;> rfl

/-- The deliver step answers the request at the head of the queue, or changes nothing. -/
theorem deliver_cases (s : State) :
    (∃ q qs, s.rst = false ∧ s.ready = true ∧ s.inflight = q :: qs ∧
      deliver s = .next (s.respond (answer s.build q))) ∨
    (s.deliverEnabled = false ∧ deliver s = .next s) := by
  cases h : s.deliverEnabled with
  | false => exact .inr ⟨rfl, by simp [deliver, h]⟩
  | true =>
    obtain ⟨hr, hy, hi⟩ := s.deliverEnabled_iff.mp h
    obtain ⟨q, qs, hq⟩ := List.exists_cons_of_ne_nil hi
    exact .inl ⟨q, qs, hr, hy, hq, by simp [deliver, h, hq, runRequest_eq]⟩

/-- What a transition makes of a state in which it answers `t`: one case per transition. -/
theorem takeMove_next {m : Move} {s t : State} (h : takeMove m s = .next t) :
    (∃ q, m = .offer q ∧ t = s.offer q) ∨ (∃ b, m = .ready b ∧ t = s.setReady b) ∨
    (∃ b, m = .reset b ∧ t = s.driveReset b) ∨ (m = .accept ∧ t = s.accept) ∨
    (m = .deliver ∧ s.deliverEnabled = true ∧ ∃ q qs, s.inflight = q :: qs ∧ t = s.respond (answer s.build q)) ∨
    (m = .deliver ∧ s.deliverEnabled = false ∧ t = s) ∨ (m = .idle ∧ t = s) := by
  cases m with
  | deliver =>
    rcases deliver_cases s with ⟨q, qs, hr, hy, hq, hd⟩ | ⟨he, hd⟩
    · have : s.respond (answer s.build q) = t := by simpa [takeMove, hd] using h
      exact .inr (.inr (.inr (.inr (.inl ⟨rfl, by simp [State.deliverEnabled, hr, hy, hq], q, qs, hq, this.symm⟩))))
    · have : s = t := by simpa [takeMove, hd] using h
      exact .inr (.inr (.inr (.inr (.inr (.inl ⟨rfl, he, this.symm⟩)))))
  | offer q => exact .inl ⟨q, rfl, (Host.Outcome.next.inj h).symm⟩
  | ready b => exact .inr (.inl ⟨b, rfl, (Host.Outcome.next.inj h).symm⟩)
  | reset b => exact .inr (.inr (.inl ⟨b, rfl, (Host.Outcome.next.inj h).symm⟩))
  | accept => exact .inr (.inr (.inr (.inl ⟨rfl, (Host.Outcome.next.inj h).symm⟩)))
  | idle => exact .inr (.inr (.inr (.inr (.inr (.inr ⟨rfl, (Host.Outcome.next.inj h).symm⟩)))))

/-- Every transition answers a next state. -/
theorem takeMove_total (m : Move) (s : State) : ∃ t, takeMove m s = .next t := by
  cases m with
  | deliver => rcases deliver_cases s with ⟨_, _, _, _, _, h⟩ | ⟨_, h⟩ <;> exact ⟨_, h⟩
  | _ => exact ⟨_, rfl⟩

/-- One step is one transition from the state in which its choice is used up. -/
theorem step_eq (s : State) : step s = takeMove s.nextMove s.beginStep := rfl

/-- A run of settled transitions, one transition at a time. -/
theorem State.runs_cons {s t : State} {m : Move} {ms : List Move} :
    s.Runs (m :: ms) t ↔
      ∃ u, takeMove m ({ s with schedule := m :: ms } : State).beginStep = .next u ∧ u.Runs ms t := by
  obtain ⟨u, hu⟩ := takeMove_total m ({ s with schedule := m :: ms } : State).beginStep
  have hs : Sys2Proof.core.step ({ s with schedule := m :: ms } : State) = .next u := hu
  have hms : u.schedule = ms := by
    rcases takeMove_next hu with ⟨_, _, h⟩ | ⟨_, _, h⟩ | ⟨_, _, h⟩ | ⟨_, h⟩ | ⟨_, _, _, _, _, h⟩ | ⟨_, _, h⟩ | ⟨_, h⟩ <;>
      simp [h]
  have hu' : ({ u with schedule := ms } : State) = u := by rw [← hms]
  have hrun : s.Runs (m :: ms) t ↔ u.Runs ms t := by
    unfold State.Runs
    simp only [List.length_cons, Host.Core.run, hs, hu']
  rw [hrun, hu]
  simp

theorem State.runs_nil {s t : State} : s.Runs [] t ↔ t = { s with schedule := [] } := by
  show Host.Outcome.next ({ s with schedule := [] } : State) = .next t ↔ _
  simp [eq_comm]

/-- Settled transitions always run to an end. -/
theorem State.runs_total (ms : List Move) (s : State) : ∃ t, s.Runs ms t := by
  induction ms generalizing s with
  | nil => exact ⟨_, State.runs_nil.mpr rfl⟩
  | cons m ms ih =>
    obtain ⟨u, hu⟩ := takeMove_total m ({ s with schedule := m :: ms } : State).beginStep
    obtain ⟨t, ht⟩ := ih u
    exact ⟨t, State.runs_cons.mpr ⟨u, hu, ht⟩⟩

/-- A run has one end. -/
theorem State.runs_unique {s t t' : State} {ms : List Move} (h : s.Runs ms t) (h' : s.Runs ms t') : t = t' :=
  Host.Outcome.next.inj (h.symm.trans h')

/-- What a transition does depends on nothing that is settled for later. -/
theorem takeMove_schedule {m : Move} {s t : State} (ms : List Move) (h : takeMove m s = .next t) :
    takeMove m { s with schedule := ms } = .next { t with schedule := ms } := by
  rcases takeMove_next h with ⟨_, rfl, rfl⟩ | ⟨_, rfl, rfl⟩ | ⟨_, rfl, rfl⟩ | ⟨rfl, rfl⟩ | ⟨rfl, he, q, qs, hi, rfl⟩ |
    ⟨rfl, he, rfl⟩ | ⟨rfl, rfl⟩
  · rfl
  · rfl
  · rfl
  · have ha : ({ s with schedule := ms } : State).acceptEnabled = s.acceptEnabled := rfl
    cases hs : s.acceptEnabled <;> simp [takeMove, State.accept, ha, hs]
  · rcases deliver_cases { s with schedule := ms } with ⟨q', qs', _, _, hi', hd⟩ | ⟨he', _⟩
    · have hq : q' = q := (List.cons.inj (hi'.symm.trans hi)).1
      rw [takeMove, hd, hq]
      rfl
    · exact absurd (he'.symm.trans he) (by decide)
  · rcases deliver_cases { t with schedule := ms } with ⟨_, _, hr, hy, hi', _⟩ | ⟨_, hd⟩
    · have ht : t.deliverEnabled = true := t.deliverEnabled_iff.mpr ⟨hr, hy, by simp [show t.inflight = _ from hi']⟩
      exact absurd (he.symm.trans ht) (by decide)
    · exact hd
  · rfl

/-- Two runs, one after the other, are one run. -/
theorem State.runs_append {s u t : State} {ms ns : List Move} (h : s.Runs ms u) (h' : u.Runs ns t) :
    s.Runs (ms ++ ns) t := by
  induction ms generalizing s with
  | nil =>
    obtain rfl := State.runs_nil.mp h
    exact h'
  | cons m ms ih =>
    obtain ⟨v, hv, hr⟩ := State.runs_cons.mp h
    have hn := takeMove_schedule (ms ++ ns) hv
    exact State.runs_cons.mpr ⟨_, hn, ih hr⟩

end Sys2Proof.Machine
end

