-- ==== Sys2Proof/Laws/PerInstr.lean ====
section
/-!
SUPPORT. Facts about every operation as syntax, one lemma per constructor.
-/

namespace Sys2Proof.Laws.OpField

/-- The packet of an operation has the operation's op code in bits 135..128, and that op code is an assigned one
(R43, R46). -/
def Statement (i : Instr) : Prop :=
  (encode i).extractLsb' 128 8 = i.request.op ∧ i.request.wf = true

/-- The top eight bits of a request packet are its op code. -/
theorem op_of_pack (q : Request) : q.pack.extractLsb' 128 8 = q.op := by
  apply BitVec.eq_of_getLsbD_eq
  intro j hj
  simp only [Request.pack, BitVec.getLsbD_extractLsb', BitVec.getLsbD_append, hj, decide_true, Bool.true_and]
  rw [if_neg (by omega), if_neg (by omega)]
  rw [show 128 + j - 64 - 64 = j by omega]

theorem perm (src idx : Word) : Statement (.perm src idx) := ⟨op_of_pack _, rfl⟩

theorem permref (src idx : Word) : Statement (.permref src idx) := ⟨op_of_pack _, rfl⟩

end Sys2Proof.Laws.OpField
end

