-- ==== Sys2Proof/Laws/Program.lean ====
section
/-!
SUPPORT. What a requester program does with what it sees, and what a run of a program is.
-/

namespace Sys2Proof.Machine

@[simp] theorem Program.see_finished (e : Sight) : Program.finished.see e = .finished := rfl
@[simp] theorem Program.see_offer (q : Request) (p : Program) (e : Sight) : (Program.offer q p).see e = .offer q (p.see e) := rfl
@[simp] theorem Program.see_await (next : Sight → Program) (e : Sight) : (Program.await next).see e = next e := rfl

@[simp] theorem Program.nothingLeft_finished : Program.finished.NothingLeft := trivial
@[simp] theorem Program.not_nothingLeft_offer (q : Request) (p : Program) : ¬ (Program.offer q p).NothingLeft := id

/-- Nothing that a program sees leaves it with a request to offer where it had none. -/
theorem Program.NothingLeft.see {p : Program} (h : p.NothingLeft) (e : Sight) : (p.see e).NothingLeft := by
  cases p with
  | finished => trivial
  | offer q rest => exact h.elim
  | await next => exact h e

@[simp] theorem Program.foldl_see_finished (es : List Sight) : es.foldl Program.see .finished = .finished := by
  induction es with
  | nil => rfl
  | cons e es ih => exact ih

@[simp] theorem Program.foldl_see_offer (q : Request) (p : Program) (es : List Sight) :
    es.foldl Program.see (.offer q p) = .offer q (es.foldl Program.see p) := by
  induction es generalizing p with
  | nil => rfl
  | cons e es ih => exact ih (p.see e)

/-- A run of a program is a run of the unit. -/
theorem Program.Runs.runs {p p' : Program} {s t : State} {ms : List Move} (h : p.Runs s ms p' t) : s.Runs ms t := by
  induction h with
  | start h => exact h
  | offer h _ ih => exact State.runs_append h ih
  | other _ h _ ih => exact State.runs_append h ih

/-- A finished program runs with every list of transitions that offers nothing. -/
theorem Program.finished_runs {s t : State} {ms : List Move} (h : s.Runs ms t) (ho : offersOf ms = []) :
    Program.finished.Runs s ms .finished t := by
  induction ms generalizing s with
  | nil => exact .start h
  | cons m ms ih =>
    obtain ⟨h1, h2⟩ := List.append_eq_nil_iff.mp (show offersOf [m] ++ offersOf ms = [] by simpa [offersOf] using ho)
    obtain ⟨u, hu⟩ := State.runs_total [m] s
    obtain ⟨v, hv⟩ := State.runs_total ms u
    obtain rfl := State.runs_unique h (State.runs_append hu hv)
    exact .other h1 hu (by simpa using ih hv h2)

end Sys2Proof.Machine
end

