-- ==== Sys2Proof/Tests/Slice0.lean ====
section
/-!
SUPPORT. The model's own tests. Expected values are the spec's: its section 95 (the test vectors) and the worked
examples of its rules. The second half shows, for each statement with hypotheses, values that meet them together.
-/

open Sys2Proof Sys2Proof.Machine

namespace Sys2Proof.Tests

/-- The operands of the source's scenario (S3). -/
def srcS3 : Word := 0x9E3779B97F4A7C15
def idxS3 : Word := 0xB74E05C2FD83169A

/-- The requests of program P5. -/
def q1 : Request := { op := 0x00, idx := 0x0FEDCBA987654321, src := 0x0123456789ABCDEF }
def q2 : Request := { op := 0x02, idx := 0xFFFFFFFFFFFFFFFF, src := 0x0000000000000001 }
def q3 : Request := { op := 0x01, idx := 0xFEDCBA9876543210, src := 0xDEADBEEFCAFEF00D }

/-- A unit with DEPTH 2 whose reset is released and whose host is ready. -/
def unit2 (narrow : Config.NarrowStrategy) (inflight offered : List Request) (schedule : List Move) : State where
  rst := false
  inflight := inflight
  offered := offered
  delivered := []
  ready := true
  schedule := schedule
  tick := 0
  build := { depth := 2, narrow := narrow, vperm := true }

/-- The queue, the waiting requests and the responses after one step. -/
def after (s : State) : Option (List Request × List Request × List Response) :=
  match step s with
  | .next t => some (t.inflight, t.offered, t.delivered)
  | .fault _ => none
  | .refused _ => none

/-! ### Well-formedness: a term that each check refuses -/

theorem test_wf_refuses_depth_zero : Config.Build.wf { depth := 0, narrow := .maddPack, vperm := true } = false := by
  decide
theorem test_wf_accepts_depth_one : Config.Build.wf { depth := 1, narrow := .maddPack, vperm := true } = true := by
  decide
theorem test_wf_refuses_reserved_op : q2.wf = false := by decide
theorem test_wf_accepts_permref_op : q3.wf = true := by decide

/-! ### Decoding: packets written out from R43 and R46 (95, sections 2.6 and 3) -/

theorem test_decode_perm :
    decodePacket 0x00B74E05C2FD83169A9E3779B97F4A7C15 = .instr (.perm srcS3 idxS3) := by decide
theorem test_decode_permref :
    decodePacket 0x01B74E05C2FD83169A9E3779B97F4A7C15 = .instr (.permref srcS3 idxS3) := by decide
theorem test_decode_reserved_lowest :
    decodePacket 0x02B74E05C2FD83169A9E3779B97F4A7C15 = .rejected (.reservedOp 0x02) := by decide
theorem test_decode_reserved_highest :
    decodePacket 0xFF00000000000000000000000000000000 = .rejected (.reservedOp 0xFF) := by decide
theorem test_encode_perm : encode (.perm srcS3 idxS3) = 0x00B74E05C2FD83169A9E3779B97F4A7C15 := by decide
theorem test_encode_permref :
    encode (.permref 0xDEADBEEFCAFEF00D 0xFEDCBA9876543210) = 0x01FEDCBA9876543210DEADBEEFCAFEF00D := by decide
theorem test_response_packet : Response.pack { dst := 0x77AE547C93971FB9, err := true } = 0x177AE547C93971FB9 := by
  decide

/-! ### The stages (95, sections 2.1 to 2.4) -/

theorem test_widen_stages : shift (load 0xDEADBEEFCAFEF00D) = 0x00000000000000000DEADBEEFCAFEF00 ∧
    interleave (load 0xDEADBEEFCAFEF00D) (shift (load 0xDEADBEEFCAFEF00D)) = 0x0DDEEAADDBBEEEEFFCCAAFFEEFF0000D ∧
    widen 0xDEADBEEFCAFEF00D = 0x0D0E0A0D0B0E0E0F0C0A0F0E0F00000D := by decide
theorem test_bshuf_reverses : bshuf 0xAFAEADACABAAA9A8A7A6A5A4A3A2A1A0 0x000102030405060708090A0B0C0D0E0F =
    0xA0A1A2A3A4A5A6A7A8A9AAABACADAEAF := by decide
theorem test_maddConst : maddConst = 0x10011001100110011001100110011001 := by decide
theorem test_narrowMadd_unsigned : narrowMadd 0x0C03090700000F0F02010808000F0F00 = 0xC39700FF21880FF0 := by decide
theorem test_xodd : xodd = 0x80808080808080800F0D0B0907050301 := by decide
set_option maxRecDepth 8000 in
theorem test_narrowShift : narrowShift 0x0C03090700000F0F02010808000F0F00 = 0xC39700FF21880FF0 := by decide
theorem test_satU8_clamps : satU8 (-1) = 0 ∧ satU8 255 = 255 ∧ satU8 256 = 255 := by decide
set_option maxRecDepth 8000 in
theorem test_simd_without_vperm :
    simd { depth := 1, narrow := .shiftOrShuf, vperm := false } 0xDEADBEEFCAFEF00D 0x0F1E2D3C4B5A6978 =
      0xDD0E0AFDEBFEAECF := by decide
set_option maxRecDepth 8000 in
theorem test_invIndex : invIndex idxS3 = 0x7C69F015E2AD483B := by decide

/-! ### One step (95, section 2.5 and program P5) -/

set_option maxRecDepth 8000 in
theorem test_step_perm_maddPack : after (unit2 .maddPack [q1, q2] [] [.deliver]) =
    some ([q2], [], [{ dst := 0xF0123456789ABCDE, err := false }]) := by decide
set_option maxRecDepth 8000 in
theorem test_step_perm_shiftOrShuf : after (unit2 .shiftOrShuf [q1, q2] [q3] [.deliver]) =
    some ([q2], [q3], [{ dst := 0xF0123456789ABCDE, err := false }]) := by decide
set_option maxRecDepth 8000 in
theorem test_step_permref : after (unit2 .maddPack [q3] [] [.deliver]) =
    some ([], [], [{ dst := 0xDEADBEEFCAFEF00D, err := false }]) := by decide
theorem test_step_reserved : after (unit2 .maddPack [q2, q3] [] [.deliver]) =
    some ([q3], [], [{ dst := 0, err := true }]) := by decide
theorem test_step_accept : after (unit2 .maddPack [q1] [q2, q3] [.accept]) = some ([q1, q2], [q3], []) := by decide
theorem test_step_accept_held_when_full :
    after (unit2 .maddPack [q1, q2] [q3] [.accept]) = some ([q1, q2], [q3], []) := by decide
theorem test_step_reset : after (unit2 .maddPack [q3] [] [.reset true]) = some ([], [], []) := by decide
set_option maxRecDepth 8000 in
theorem test_fetch_word_runs_perm :
    after (State.reset.withFetchWord 136 0x00B74E05C2FD83169A9E3779B97F4A7C15) =
      some ([], [], [{ dst := 0x77AE547C93971FB9, err := false }]) := by decide
set_option maxRecDepth 8000 in
theorem test_fetch_word_runs_permref :
    after (State.reset.withFetchWord 136 0x01B74E05C2FD83169A9E3779B97F4A7C15) =
      some ([], [], [{ dst := 0x77AE547C93971FB9, err := false }]) := by decide

/-! ### Witnesses: values that meet the hypotheses of the statements -/

theorem test_witness_reserved_op_bounds : 2 ≤ (0x02 : Byte).toNat ∧ 2 ≤ (0xFF : Byte).toNat := by decide
theorem test_witness_DecodeInvertsEncode : (Instr.perm srcS3 idxS3).wf = true ∧ (Instr.permref 0 0).wf = true := by
  decide
theorem test_witness_EncodeInvertsDecode : decodePacket (encode (.permref srcS3 idxS3)) = .instr (.permref srcS3 idxS3) := by
  decide
theorem test_witness_NibbleLanes : NibbleLanes 0 ∧ NibbleLanes 0x0F0F0F0F0F0F0F0F0F0F0F0F0F0F0F0F ∧
    NibbleLanes 0x07070A0E0504070C09030907010F0B09 := by decide
/-- Registers that agree in their low eight lanes and differ in lane 8. -/
theorem test_witness_InterleaveThenMask :
    (∀ k < 8, lane (load srcS3) k = lane (load srcS3 ||| 0x00000000000000FF0000000000000000) k ∧
      lane (load idxS3) k = lane (load idxS3 ||| 0xFF000000000000000000000000000000) k) ∧
    load srcS3 ≠ load srcS3 ||| 0x00000000000000FF0000000000000000 := by decide
/-- A shift by 4 within each byte of the scenario's source. -/
theorem test_witness_MaskHidesUnreadBits :
    (∀ k < 8, (lane (0x00000000000000000903070B07040701 : VReg) k).extractLsb' 0 4 =
      (lane (load srcS3) k).extractLsb' 4 4) ∧
    (0x00000000000000000903070B07040701 : VReg) ≠ shift (load srcS3) := by decide
theorem test_witness_ReferenceLoopAnyOrder : (List.range 16).reverse.Perm (List.range 16) := List.reverse_perm _
theorem test_witness_PermutationContract :
    ∀ i < 16, nib 0x77AE547C93971FB9 i = nib srcS3 (nib idxS3 i).toNat := by decide
theorem test_witness_IdentityIndex : ∀ i < 16, (nib 0xFEDCBA9876543210 i).toNat = i := by decide
theorem test_witness_ConstantIndexBroadcasts :
    (∀ i < 16, nib 0x7777777777777777 i = 7) ∧ (∀ i < 16, nib 0 i = 0) ∧ ∀ i < 16, nib 0xFFFFFFFFFFFFFFFF i = 15 := by
  decide
/-- Index arrays that agree in field 0 only; the bits next to field 1, and the outermost bits of the word. -/
theorem test_witness_IndexLocality : nib 0x123456789ABCDEFA 0 = nib idxS3 0 ∧
    ¬ (4 * 1 ≤ 3 ∧ 3 ≤ 4 * 1 + 3) ∧ ¬ (4 * 1 ≤ 8 ∧ 8 ≤ 4 * 1 + 3) ∧ ¬ (4 * 15 ≤ 0 ∧ 0 ≤ 4 * 15 + 3) ∧
    ¬ (4 * 0 ≤ 63 ∧ 63 ≤ 4 * 0 + 3) := by decide
theorem test_witness_InverseRoundTrip : DistinctFields idxS3 ∧ DistinctFields 0x0FEDCBA987654321 := by decide

/-- An operation in flight and the deliver step next (StepRunsDecodedRequest, DeliverStep, ResponseOfRequestAlone). -/
theorem test_witness_deliver_enabled : ∃ s s' : State, s.rst = false ∧ s.ready = true ∧ s.nextMove = .deliver ∧
    s.inflight = q1 :: [q2] ∧ decode q1 = .instr (.perm 0x0123456789ABCDEF 0x0FEDCBA987654321) ∧
    (Instr.perm 0x0123456789ABCDEF 0x0FEDCBA987654321).wf = true ∧
    s'.rst = false ∧ s'.ready = true ∧ s'.nextMove = .deliver ∧ s'.inflight = q1 :: [] ∧ s.build ≠ s'.build :=
  ⟨unit2 .maddPack [q1, q2] [] [.deliver], unit2 .shiftOrShuf [q1] [q3] [.deliver], by decide⟩
theorem test_witness_DeliverStep_held : ∃ s s' s'' : State,
    (s.nextMove = .deliver ∧ s.rst = true) ∧ (s'.nextMove = .deliver ∧ s'.ready = false) ∧
    s''.nextMove = .deliver ∧ s''.inflight = [] :=
  ⟨{ unit2 .maddPack [q1] [] [.deliver] with rst := true }, { unit2 .maddPack [q1] [] [.deliver] with ready := false },
    unit2 .maddPack [] [] [.deliver], by decide⟩
theorem test_witness_ReservedOpAnswered : ∃ s : State, 2 ≤ q2.op.toNat ∧ s.rst = false ∧ s.ready = true ∧
    s.inflight = q2 :: [q3] ∧ s.nextMove = .deliver := ⟨unit2 .maddPack [q2, q3] [] [.deliver], by decide⟩
theorem test_witness_ReservedOpAnswered_between : ∃ s : State, 2 ≤ q2.op.toNat ∧ s.rst = false ∧ s.ready = true ∧
    s.inflight = q1 :: q2 :: q3 :: [] := ⟨unit2 .maddPack [q1, q2, q3] [] [], by decide⟩
/-- One below DEPTH, at DEPTH, in reset, nothing offered, and idle. -/
theorem test_witness_AcceptStep : ∃ a b c d e : State,
    (a.nextMove = .accept ∧ a.rst = false ∧ a.inflight.length + 1 = a.build.depth ∧ a.offered = q2 :: [q3]) ∧
    (b.nextMove = .accept ∧ b.build.depth = b.inflight.length) ∧ (c.nextMove = .accept ∧ c.rst = true) ∧
    (d.nextMove = .accept ∧ d.offered = []) ∧ e.nextMove = .idle :=
  ⟨unit2 .maddPack [q1] [q2, q3] [.accept], unit2 .maddPack [q1, q2] [q3] [.accept],
    { unit2 .maddPack [] [q3] [.accept] with rst := true }, unit2 .maddPack [q1] [] [.accept],
    unit2 .maddPack [q1] [q2] [.idle], by decide⟩
theorem test_witness_DisabledTransitionsChangeNothing : ∃ a b c : State,
    (a.nextMove = .deliver ∧ a.deliverEnabled = false) ∧ (b.nextMove = .accept ∧ b.acceptEnabled = false) ∧
    c.nextMove = .idle :=
  ⟨unit2 .maddPack [] [q1] [.deliver], unit2 .maddPack [q1, q2] [q3] [.accept], unit2 .maddPack [q1] [q2] [.idle],
    by decide⟩
theorem test_witness_ResetInput : ∃ a b c : State, a.nextMove = .reset true ∧
    (b.rst = true ∧ b.nextMove ≠ .reset false) ∧ c.rst = true ∧ c.nextMove = .reset false :=
  ⟨unit2 .maddPack [q1] [] [.reset true], { unit2 .maddPack [q1] [q2] [.accept] with rst := true },
    { unit2 .maddPack [] [q2] [.reset false] with rst := true }, by decide⟩
theorem test_witness_HostTransitions : ∃ a b : State, (a.rst = false ∧ a.nextMove = .offer q1) ∧
    b.rst = false ∧ b.nextMove = .ready false :=
  ⟨unit2 .maddPack [] [] [.offer q1], unit2 .maddPack [q1] [] [.ready false], by decide⟩
theorem test_witness_AcceptAndDeliverCommute : ∃ s : State, s.rst = false ∧ s.ready = true ∧
    s.inflight = q1 :: [] ∧ s.inflight.length < s.build.depth ∧ s.offered = q2 :: [q3] :=
  ⟨unit2 .maddPack [q1] [q2, q3] [], by decide⟩
/-- A state that meets the invariant with a full queue, and its next state (StepKeepsInvariant,
StepKeepsBuildAndResponses). -/
theorem test_witness_StepKeepsInvariant : ∃ s t : State, s.Inv ∧ s.inflight.length = s.build.depth ∧ step s = .next t :=
  ⟨unit2 .maddPack [q1, q2] [] [.idle], { unit2 .maddPack [q1, q2] [] [] with tick := 1 }, by decide, by decide, rfl⟩
theorem test_witness_ResponsesInOrderExactlyOnce : ∃ (s : State) (ms : List Move), s.rst = false ∧
    Move.reset true ∉ ms ∧ offersOf ms = [q2] ∧ Move.accept ∈ ms ∧ Move.deliver ∈ ms :=
  ⟨unit2 .maddPack [q1] [] [], [.offer q2, .deliver, .accept], by decide⟩
/-- Two schedules of program P5's first two requests that end the run. -/
theorem test_witness_FinalObservationFixed : ∃ (s t t' : State) (ms ms' : List Move), s.rst = false ∧
    Move.reset true ∉ ms ∧ Move.reset true ∉ ms' ∧ offersOf ms = offersOf ms' ∧ ms ≠ ms' ∧
    s.Runs ms t ∧ s.Runs ms' t' ∧ t.Drained ∧ t'.Drained := by
  have run : ∀ ms : List Move, ms = [.accept, .deliver, .idle] ∨ ms = [.accept, .idle, .deliver] →
      (unit2 .maddPack [] [q2] []).Runs ms
        { unit2 .maddPack [] [] [] with tick := 3, delivered := [{ dst := 0, err := true }] } := by
    rintro ms (rfl | rfl) <;> rfl
  exact ⟨_, _, _, [.accept, .deliver, .idle], [.accept, .idle, .deliver], rfl, by decide, by decide, rfl, by decide, run _ (.inl rfl), run _ (.inr rfl), by decide,
    by decide⟩
theorem test_witness_HoldWhenFull : ∃ (s : State) (ms : List Move), s.rst = false ∧
    s.build.depth ≤ s.inflight.length ∧ Move.deliver ∉ ms ∧ Move.reset true ∉ ms :=
  ⟨unit2 .maddPack [q1, q2] [] [], [.offer q3, .accept], by decide⟩
theorem test_witness_HoldWhileHostNotReady : ∃ (s : State) (ms : List Move), s.ready = false ∧ s.rst = false ∧
    Move.ready true ∉ ms ∧ Move.reset true ∉ ms :=
  ⟨{ unit2 .maddPack [q1] [q2] [] with ready := false }, [.deliver, .accept], by decide⟩
theorem test_witness_FirstRequestAfterRelease : ∃ s : State, s.rst = true ∧ s.ready = true ∧ s.offered = [] ∧
    s.build.wf = true := ⟨{ unit2 .maddPack [] [] [] with rst := true }, by decide⟩
theorem test_witness_DeliveriesDrainTheQueue : ∃ (s : State) (ms : List Move), s.rst = false ∧ s.ready = true ∧
    Steady ms ∧ s.inflight.length = 2 ∧ s.inflight.length ≤ ms.count .deliver :=
  ⟨unit2 .maddPack [q1, q2] [q3] [], [.deliver, .accept, .deliver], by decide⟩

/-- Accept and deliver in turn: both steps are taken again and again, so both are weakly fair. -/
def inTurn (n : Nat) : Move := if n % 2 = 0 then .accept else .deliver

theorem test_witness_ProgressUnderWeakFairness : ∃ (s : State) (σ : Nat → Move), s.Inv ∧ s.rst = false ∧
    s.ready = true ∧ s.inflight ≠ [] ∧ s.offered ≠ [] ∧ (∀ n, Steady (firstMoves σ n)) ∧
    WeaklyFair s σ State.deliverEnabled .deliver ∧ WeaklyFair s σ State.acceptEnabled .accept := by
  refine ⟨unit2 .maddPack [q1] [q2, q3] [], inTurn, by decide, rfl, rfl, by decide, by decide, ?_, ?_, ?_⟩
  · refine fun n => ⟨fun h => ?_, fun h => ?_⟩ <;>
      · obtain ⟨k, _, hk⟩ := List.mem_map.mp h
        unfold inTurn at hk
        split at hk <;> cases hk
  · exact fun N => ⟨2 * N + 1, by omega, .inl (by rw [inTurn, if_neg (by omega)])⟩
  · exact fun N => ⟨2 * N, by omega, .inl (by rw [inTurn, if_pos (by omega)])⟩

/-- The host becomes ready, the unit delivers, the host stops being ready, the unit accepts, and so on. -/
def atAPace (n : Nat) : Move :=
  if n % 4 = 0 then .ready true else if n % 4 = 1 then .deliver else if n % 4 = 2 then .ready false else .accept

theorem test_witness_ProgressAtTheHostsPace : ∃ (s : State) (σ : Nat → Move), s.Inv ∧ s.rst = false ∧
    s.inflight ≠ [] ∧ s.offered ≠ [] ∧ (∀ n, σ n ≠ .reset true) ∧ (∃ n, σ n = .ready false) ∧ HostTakes s σ ∧
    WeaklyFair s σ State.acceptEnabled .accept := by
  refine ⟨unit2 .maddPack [q1] [q2, q3] [], atAPace, by decide, rfl, by decide, by decide, fun n => ?_, ⟨2, rfl⟩,
    fun N => ?_, fun N => ⟨4 * N + 3, by omega, .inl ?_⟩⟩
  · unfold atAPace
    repeat' split
    all_goals simp
  · obtain ⟨u, hu⟩ := State.runs_total (firstMoves atAPace (4 * N)) (unit2 .maddPack [q1] [q2, q3] [])
    have hn : atAPace (4 * N) = .ready true := if_pos (by omega)
    refine ⟨4 * N + 1, by omega, ({ u with schedule := [.ready true] } : State).beginStep.setReady true, ?_,
      .inr ⟨?_, rfl⟩⟩
    · have := State.runs_append hu (State.runs_cons.mpr ⟨_, rfl, State.runs_nil.mpr rfl⟩ :
        u.Runs [.ready true] (({ u with schedule := [.ready true] } : State).beginStep.setReady true))
      simpa [firstMoves, List.range_succ, hn] using this
    · rw [atAPace, if_neg (by omega), if_pos (by omega)]
  · rw [atAPace, if_neg (by omega), if_neg (by omega), if_neg (by omega)]

/-- The first two rotations of program P2, the second on the response to the first. -/
def rotateTwice : Program :=
  .offer (rotate 0x9E3779B97F4A7C15) (.await fun e => match e with
    | .response r => .offer (rotate r.dst) .finished
    | .reset => .finished)
where
  rotate (v : Word) : Request := (Instr.nrotr v).request

/-- R99: nothing waits and nothing is in flight at the start, after the first response, and at the end, and the run of
the chained program is over only at the end. -/
theorem test_chained_run_over_only_at_end : ∀ t : State, t.Drained →
    ¬ t.Over rotateTwice ∧
    rotateTwice.see (.response { dst := 0x59E3779B97F4A7C1, err := false }) =
      .offer (rotateTwice.rotate 0x9E3779B97F4A7C15) (.offer (rotateTwice.rotate 0x59E3779B97F4A7C1) .finished) ∧
    ¬ t.Over (.offer (rotateTwice.rotate 0x59E3779B97F4A7C1) .finished) ∧ t.Over .finished :=
  fun _ h => ⟨fun o => o.1, rfl, fun o => o.1, trivial, h⟩

/-- A program that asks again after a reset, as P5 does with its third request. -/
theorem test_program_reissues_after_reset :
    (Program.await fun e => match e with | .response _ => .finished | .reset => .offer q3 .finished).see .reset =
      .offer q3 .finished ∧
    sights (unit2 .maddPack [q3] [] []) { unit2 .maddPack [] [] [] with rst := true } = [.reset] := ⟨rfl, by decide⟩

/-- Two runs of one chained program, which offers q2 again once it is answered with err = 1, that are over. -/
theorem test_witness_ProgramObservationFixed : ∃ (p p₁ p₂ : Program) (s t₁ t₂ : State) (ms₁ ms₂ : List Move),
    s.rst = false ∧ Move.reset true ∉ ms₁ ∧ Move.reset true ∉ ms₂ ∧ ms₁ ≠ ms₂ ∧ offersOf ms₁ = [q2, q2] ∧
    p.Runs s ms₁ p₁ t₁ ∧ p.Runs s ms₂ p₂ t₂ ∧ t₁.Over p₁ ∧ t₂.Over p₂ := by
  let chained : Program := .offer q2 (.await fun e => match e with
    | .response r => if r.err then .offer q2 .finished else .finished
    | .reset => .finished)
  have run : ∀ m : Move, m = .idle ∨ m = .ready true → chained.Runs (unit2 .maddPack [] [] [])
      [.offer q2, .accept, .deliver, m, .offer q2, .accept, .deliver] .finished
      { unit2 .maddPack [] [] [] with tick := 7, delivered := [{ dst := 0, err := true }, { dst := 0, err := true }] } := by
    rintro m (rfl | rfl) <;>
      exact .offer rfl (.other rfl rfl (.other rfl rfl (.other rfl rfl (.offer rfl (.other rfl rfl (.other rfl rfl (.start rfl)))))))
  exact ⟨chained, _, _, _, _, _, _, _, rfl, by decide, by decide, by decide, rfl, run _ (.inl rfl), run _ (.inr rfl),
    ⟨trivial, rfl, rfl⟩, trivial, rfl, rfl⟩
theorem test_witness_ProgramRunsToItsEnd : ∃ s : State, s.Inv ∧ s.rst = false ∧ s.ready = true ∧ s.offered ≠ [] :=
  ⟨unit2 .maddPack [q1] [q2] [], by decide⟩

end Sys2Proof.Tests
end

section
/-!
What each shared operation makes of the invariant (R6, R24, R93), and from these that every step keeps it.
-/

namespace Sys2Proof.Machine

/-- Holding the unit in reset restores the third part of the invariant, so the other two are all it asks for. -/
theorem State.holdReset_inv {s : State} (hwf : s.build.wf = true) (hdepth : s.inflight.length ≤ s.build.depth) :
    s.holdReset.Inv := by
  refine ⟨hwf, ?_, fun hrst => if_pos hrst⟩
  cases hrst : s.rst with
  | true => simp [hrst]
  | false => simpa [hrst] using hdepth

theorem State.Inv.beginStep {s : State} (h : s.Inv) : s.beginStep.Inv := by
  obtain ⟨hwf, hdepth, -⟩ := h
  exact State.holdReset_inv (s := { s with schedule := s.schedule.tail, tick := s.tick + 1 }) hwf hdepth

theorem State.Inv.driveReset {s : State} (h : s.Inv) (level : Bool) : (s.driveReset level).Inv := by
  obtain ⟨hwf, hdepth, -⟩ := h
  exact State.holdReset_inv (s := { s with rst := level }) hwf hdepth

/-- The accept step adds a request only where fewer than DEPTH are in flight and reset is released (R25). -/
theorem State.Inv.accept {s : State} (h : s.Inv) : s.accept.Inv := by
  obtain ⟨q, qs, hrst, hroom, -, hacc⟩ | ⟨-, hacc⟩ := s.accept_cases
  · obtain ⟨hwf, -, -⟩ := h
    rw [hacc]
    refine ⟨hwf, ?_, by simp [hrst]⟩
    simpa using Nat.succ_le_of_lt hroom
  · rwa [hacc]

/-- Answering a request only shortens the queue. -/
theorem State.Inv.respond {s : State} (h : s.Inv) (r : Response) : (s.respond r).Inv := by
  obtain ⟨hwf, hdepth, hempty⟩ := h
  refine ⟨hwf, ?_, fun hrst => ?_⟩
  · calc s.inflight.tail.length ≤ s.inflight.length := by simp
      _ ≤ s.build.depth := hdepth
  · simp [hempty hrst]

/-- Offering a request and changing readiness touch no field of which the invariant speaks. -/
theorem State.Inv.takeMove {m : Move} {s t : State} (h : s.Inv) (ht : takeMove m s = .next t) : t.Inv := by
  obtain ⟨q, -, rfl⟩ | ⟨level, -, rfl⟩ | ⟨level, -, rfl⟩ | ⟨-, rfl⟩ | ⟨-, -, q, qs, -, rfl⟩ | ⟨-, -, rfl⟩ | ⟨-, rfl⟩ :=
    takeMove_next ht
  · exact h
  · exact h
  · exact h.driveReset level
  · exact h.accept
  · exact h.respond (answer s.build q)
  · exact h
  · exact h

/-- Settles O45: beginning a step keeps the invariant, and so does each transition. -/
theorem stepKeepsInvariant : Obligations.StepKeepsInvariant := by
  unfold Obligations.StepKeepsInvariant
  intro s t hinv hstep
  rw [step_eq] at hstep
  exact hinv.beginStep.takeMove hstep

end Sys2Proof.Machine
end

section
/-!
From the SIMD path and the reference loop to the contract (R57 to R69), field by field: the response to a request is
the same on every build.
-/

namespace Sys2Proof.Machine

/-! ### Widening and permutation (R57 to R59) -/

/-- Masking the high nibble of the low byte of a shifted register leaves one field. -/
theorem lane_widen (w : Word) {i : Nat} (hi : i < 16) : lane (widen w) i = (nib w i).setWidth 8 := by
  have hmask : ∀ x : Byte, x &&& 0x0F = (x.extractLsb' 0 4).setWidth 8 := by decide
  rw [widen, lane_mask _ hi, lane_interleave _ _ hi, hmask]
  congr 1
  apply BitVec.eq_of_getLsbD_eq
  intro j hj
  obtain ⟨k, rfl | rfl⟩ : ∃ k, i = 2 * k ∨ i = 2 * k + 1 := ⟨i / 2, by omega⟩
  · have hbit : 8 * k + j = 4 * (2 * k) + j := by omega
    simp [-BitVec.getLsbD_eq_getElem, hj, show j < 8 by omega, hbit]
  · have hbit : 8 * k + j + 4 = 4 * (2 * k + 1) + j := by omega
    simp [-BitVec.getLsbD_eq_getElem, hj, show j < 8 by omega, shift_getLsbD, show (2 * k + 1) / 2 = k by omega, hbit]

theorem lane_bshuf (T X : VReg) {i : Nat} (hi : i < 16) : lane (bshuf T X) i = bshufLane T (lane X i) :=
  lane_mk128 _ hi

/-- An index byte that is a field names a lane and is never the one that zeroes (R58, R59). -/
theorem bshufLane_nibble (T : VReg) (x : Nibble) : bshufLane T (x.setWidth 8) = lane T x.toNat := by
  have hbits : ∀ x : Nibble, (x.setWidth 8).getLsbD 7 = false ∧ (x.setWidth 8).extractLsb' 0 4 = x := by decide
  obtain ⟨htop, hlow⟩ := hbits x
  simp only [bshufLane, htop, hlow, Bool.false_eq_true, if_false]

theorem lane_permuted (src idx : Word) {i : Nat} (hi : i < 16) :
    lane (bshuf (widen src) (widen idx)) i = (nib src (nib idx i).toNat).setWidth 8 := by
  rw [lane_bshuf _ _ hi, lane_widen idx hi, bshufLane_nibble, lane_widen src (nib idx i).isLt]

theorem permuted_nibbleLanes (src idx : Word) : NibbleLanes (bshuf (widen src) (widen idx)) := by
  intro i hi
  rw [lane_permuted src idx hi]
  simp only [BitVec.toNat_setWidth]
  omega

/-! ### The two recombinations (R60 to R65) -/

/-- On its domain the multiply-accumulate is exact (R60). -/
theorem lane16_madd_of_nibbleLanes {D : VReg} (hD : NibbleLanes D) {k : Nat} (hk : k < 8) :
    (lane16 (madd D) k).toNat = 16 * (lane D (2 * k + 1)).toNat + (lane D (2 * k)).toNat := by
  have heven := hD (2 * k) (by omega)
  have hodd := hD (2 * k + 1) (by omega)
  rw [lane16_madd D hk, maddLane, if_pos ⟨BitVec.le_def.mpr heven, BitVec.le_def.mpr hodd⟩,
    lane_maddConst (by omega), lane_maddConst (by omega), if_pos (by omega), if_neg (by omega)]
  simp only [BitVec.toNat_ofNat, show (1 : Byte).toNat = 1 from rfl, show (16 : Byte).toNat = 16 from rfl]
  omega

/-- On its domain saturation changes nothing, so a byte holds its pair of nibbles (R61, R62). -/
theorem lane_narrowMadd {D : VReg} (hD : NibbleLanes D) {k : Nat} (hk : k < 8) :
    (lane (narrowMadd D) k).toNat = 16 * (lane D (2 * k + 1)).toNat + (lane D (2 * k)).toNat := by
  have hmadd := lane16_madd_of_nibbleLanes hD hk
  have heven := hD (2 * k) (by omega)
  have hodd := hD (2 * k + 1) (by omega)
  rw [narrowMadd, packLow, lane_ofBytes _ hk, satU8_of_le (by omega), hmadd]

/-- `E = (D << 4) | (D << 8)` holds, in an odd lane, that lane's low nibble above the even lane's byte (R63). -/
theorem lane_shiftOr_odd {D : VReg} {k : Nat} (hk : k < 8) :
    lane (D <<< 4 ||| D <<< 8) (2 * k + 1) =
      (lane D (2 * k + 1) <<< 4 ||| lane D (2 * k) >>> 4) ||| lane D (2 * k) := by
  apply BitVec.eq_of_getLsbD_eq
  intro j hj
  have hlane : 8 * (2 * k + 1) + j - 8 = 8 * (2 * k) + j := by omega
  have hlow : 8 * (2 * k + 1) + j < 128 := by omega
  have hge4 : ¬ 8 * (2 * k + 1) + j < 4 := by omega
  have hge8 : ¬ 8 * (2 * k + 1) + j < 8 := by omega
  rw [lane_or]
  by_cases h4 : j < 4
  · have hnib : 8 * (2 * k + 1) + j - 4 = 8 * (2 * k) + (4 + j) := by omega
    simp [-BitVec.getLsbD_eq_getElem, hj, h4, hlane, hnib, hlow, hge4, hge8, show 4 + j < 8 by omega]
  · have hnib : 8 * (2 * k + 1) + j - 4 = 8 * (2 * k + 1) + (j - 4) := by omega
    simp [-BitVec.getLsbD_eq_getElem, hj, h4, hlane, hnib, hlow, hge4, hge8, show j - 4 < 8 by omega, show ¬ 4 + j < 8 by omega]

/-- A nibble shifted up and a nibble below it share no bit. -/
theorem byte_of_nibbles {odd even : Byte} (hodd : odd.toNat ≤ 15) (heven : even.toNat ≤ 15) :
    ((odd <<< 4 ||| even >>> 4) ||| even).toNat = 16 * odd.toNat + even.toNat := by
  have hup : (odd <<< 4).toNat = odd.toNat <<< 4 := by
    simp only [BitVec.toNat_shiftLeft, Nat.shiftLeft_eq]
    omega
  have hdown : (even >>> 4).toNat = 0 := by
    simp only [BitVec.toNat_ushiftRight, Nat.shiftRight_eq_div_pow]
    omega
  rw [BitVec.toNat_or, BitVec.toNat_or, hup, hdown, Nat.or_zero,
    ← Nat.shiftLeft_add_eq_or_of_lt (show even.toNat < 2 ^ 4 by omega), Nat.shiftLeft_eq, Nat.mul_comm]

/-- On its domain the re-permute gathers the odd lanes of `E`, so a byte holds its pair of nibbles (R63). -/
theorem lane_narrowShift {D : VReg} (hD : NibbleLanes D) {k : Nat} (hk : k < 8) :
    (lane (narrowShift D) k).toNat = 16 * (lane D (2 * k + 1)).toNat + (lane D (2 * k)).toNat := by
  have hlow : lane (narrowShift D) k = lane (bshuf (D <<< 4 ||| D <<< 8) xodd) k := by
    apply BitVec.eq_of_getLsbD_eq
    intro j hj
    simp [-BitVec.getLsbD_eq_getElem, narrowShift, hj, show 8 * k + j < 64 by omega]
  have hindex : BitVec.ofNat 8 (2 * k + 1) = (BitVec.ofNat 4 (2 * k + 1)).setWidth 8 := by
    apply BitVec.eq_of_toNat_eq
    simp
    omega
  rw [hlow, lane_bshuf _ _ (by omega), lane_xodd (by omega), if_pos hk, hindex, bshufLane_nibble,
    BitVec.toNat_ofNat, Nat.mod_eq_of_lt (by omega), lane_shiftOr_odd hk]
  exact byte_of_nibbles (hD _ (by omega)) (hD _ (by omega))

/-- A word whose bytes hold the pairs of a nibble-valued register has that register's lanes as its fields. -/
theorem nib_eq_lane_of_bytes {v : Word} {D : VReg} (hD : NibbleLanes D)
    (h : ∀ k < 8, (lane v k).toNat = 16 * (lane D (2 * k + 1)).toNat + (lane D (2 * k)).toNat) :
    ∀ i < 16, (nib v i).toNat = (lane D i).toNat := by
  intro i hi
  obtain ⟨k, hik⟩ : ∃ k, i = 2 * k ∨ i = 2 * k + 1 := ⟨i / 2, by omega⟩
  have hbyte := h k (by omega)
  have heven := hD (2 * k) (by omega)
  have hodd := hD (2 * k + 1) (by omega)
  rw [lane_toNat] at hbyte
  rw [nib_toNat]
  obtain rfl | rfl := hik
  · rw [show 4 * (2 * k) = 8 * k by omega]
    omega
  · rw [show 4 * (2 * k + 1) = 8 * k + 4 by omega, Nat.pow_add, ← Nat.div_div_eq_div_mul]
    omega

/-- On its domain either recombination undoes the widening (R62 to R65). -/
theorem nib_narrow (n : Config.NarrowStrategy) {D : VReg} (hD : NibbleLanes D) :
    ∀ i < 16, (nib (narrow n D) i).toNat = (lane D i).toNat := by
  cases n with
  | maddPack => exact nib_eq_lane_of_bytes hD fun _ hk => lane_narrowMadd hD hk
  | shiftOrShuf => exact nib_eq_lane_of_bytes hD fun _ hk => lane_narrowShift hD hk

/-! ### The reference loop (R68) -/

theorem nib_nperm (src idx : Word) {i : Nat} (hi : i < 16) : nib (nperm src idx) i = nib src (nib idx i).toNat :=
  nib_ofNibs _ hi

/-- One iteration changes its own field and no other. -/
theorem nib_refStep (src idx acc : Word) {i : Nat} (hi : i < 16) (k : Nat) :
    nib (refStep src idx acc k) i = if k = i then nib acc i ||| nib src (nib idx i).toNat else nib acc i := by
  apply BitVec.eq_of_getLsbD_eq
  intro j hj
  rw [nib_getLsbD, refStep_getLsbD src idx acc (by omega)]
  by_cases hk : k = i
  · subst hk
    simp [-BitVec.getLsbD_eq_getElem, hj]
  · simp [-BitVec.getLsbD_eq_getElem, hj, hk, show ¬ (4 * k ≤ 4 * i + j ∧ 4 * i + j < 4 * k + 4) by omega]

/-- The loop sets the fields whose iterations it takes, however often, and keeps the others. -/
theorem nib_foldl_refStep (src idx : Word) {i : Nat} (hi : i < 16) (order : List Nat) (acc : Word) :
    nib (order.foldl (refStep src idx) acc) i =
      if i ∈ order then nib acc i ||| nib src (nib idx i).toNat else nib acc i := by
  induction order generalizing acc with
  | nil => simp
  | cons k order ih =>
    rw [List.foldl_cons, ih, nib_refStep src idx acc hi]
    by_cases hk : k = i
    · simp [hk, BitVec.or_assoc]
    · simp [hk, Ne.symm hk]

/-- Every order that takes each of the sixteen iterations meets the contract. -/
theorem refInOrder_eq_nperm (src idx : Word) {order : List Nat} (h : ∀ i < 16, i ∈ order) :
    refInOrder order src idx = nperm src idx := by
  apply eq_of_nib_eq
  intro i hi
  rw [refInOrder, nib_foldl_refStep src idx hi, if_pos (h i hi), nib_nperm src idx hi]
  simp [nib]

theorem ref_eq_nperm (src idx : Word) : ref src idx = nperm src idx :=
  refInOrder_eq_nperm src idx fun _ hi => List.mem_range.mpr hi

/-! ### Every build computes the contract (R69) -/

theorem simd_eq_nperm (b : Config.Build) (src idx : Word) : simd b src idx = nperm src idx := by
  cases hv : b.vperm with
  | false => simpa [simd, hv] using ref_eq_nperm src idx
  | true =>
    have hsimd : simd b src idx = narrow b.narrow (bshuf (widen src) (widen idx)) := by simp [simd, hv]
    rw [hsimd]
    apply eq_of_nib_eq
    intro i hi
    apply BitVec.eq_of_toNat_eq
    rw [nib_narrow _ (permuted_nibbleLanes src idx) i hi, lane_permuted src idx hi, nib_nperm src idx hi,
      BitVec.toNat_setWidth_of_le (by decide)]

/-- `EXEC` is a function of the request: the build cannot be seen in it (R27, R69, R70). -/
theorem answer_build_irrelevant (b b' : Config.Build) (q : Request) : answer b q = answer b' q := by
  unfold answer
  rcases decode q with (⟨src, idx⟩ | _) | _
  · simp only [simd_eq_nperm]
  · rfl
  · rfl

end Sys2Proof.Machine
end

section
/-!
One step of the unit (R25, R26): what the deliver and the accept step do where they are enabled, and that a
transition that is not enabled changes nothing.
-/

namespace Sys2Proof.Machine

/-! ### The operations where they are enabled and where they are not -/

/-- An enabled deliver step runs the request at the head of the queue (R26). -/
theorem deliver_of_enabled {s : State} {q : Request} {rest : List Request} (hrst : s.rst = false)
    (hready : s.ready = true) (hq : s.inflight = q :: rest) : deliver s = runRequest q s := by
  have henabled : s.deliverEnabled = true := s.deliverEnabled_iff.mpr ⟨hrst, hready, by simp [hq]⟩
  simp [deliver, henabled, hq]

theorem deliver_of_disabled {s : State} (h : s.deliverEnabled = false) : deliver s = .next s := by
  simp [deliver, h]

/-- An enabled accept step moves the first request of the channel to the end of the queue (R25). -/
theorem State.accept_of_enabled {s : State} {q : Request} {rest : List Request} (hrst : s.rst = false)
    (hroom : s.inflight.length < s.build.depth) (hq : s.offered = q :: rest) :
    s.accept = { s with inflight := s.inflight ++ [q], offered := rest } := by
  have henabled : s.acceptEnabled = true := s.acceptEnabled_iff.mpr ⟨hrst, by simp [hq], hroom⟩
  simp [State.accept, henabled, hq]

theorem State.accept_of_disabled {s : State} (h : s.acceptEnabled = false) : s.accept = s := by
  simp [State.accept, h]

theorem runRequest_of_decode {q : Request} {i : Instr} (h : decode q = .instr i) (s : State) :
    runRequest q s = exec i s := by
  simp [runRequest, h]

theorem State.deliverEnabled_eq_false_iff (s : State) :
    s.deliverEnabled = false ↔ s.rst = true ∨ s.ready = false ∨ s.inflight = [] := by
  rw [← Bool.not_eq_true, State.deliverEnabled_iff]
  simp only [not_and_or, Bool.not_eq_false, Bool.not_eq_true, not_not]

theorem State.acceptEnabled_eq_false_iff (s : State) :
    s.acceptEnabled = false ↔ s.rst = true ∨ s.build.depth ≤ s.inflight.length ∨ s.offered = [] := by
  rw [← Bool.not_eq_true, State.acceptEnabled_iff]
  simp only [not_and_or, Bool.not_eq_false, not_not, not_lt, or_comm]

/-- Beginning a step enables no deliver step: an asserted reset empties the queue only where it disables it. -/
@[simp] theorem State.beginStep_deliverEnabled (s : State) : s.beginStep.deliverEnabled = s.deliverEnabled := by
  cases hrst : s.rst <;> simp [State.deliverEnabled, hrst]

@[simp] theorem State.beginStep_acceptEnabled (s : State) : s.beginStep.acceptEnabled = s.acceptEnabled := by
  cases hrst : s.rst <;> simp [State.acceptEnabled, hrst]

/-- What every step does before its transition, written out: an asserted reset empties the queue (R93). -/
theorem State.beginStep_eq (s : State) : s.beginStep = { s with
    schedule := s.schedule.tail
    tick := s.tick + 1
    inflight := if s.rst then [] else s.inflight } := rfl

/-! ### One step -/

/-- A step whose transition is an enabled deliver step runs the oldest request, after the choice is used up. -/
theorem step_deliver_of_enabled {s : State} {q : Request} {rest : List Request} (hmove : s.nextMove = .deliver)
    (hrst : s.rst = false) (hready : s.ready = true) (hq : s.inflight = q :: rest) :
    step s = runRequest q { s with schedule := s.schedule.tail, tick := s.tick + 1 } := by
  rw [step_eq, hmove, State.beginStep_of_released hrst]
  exact deliver_of_enabled hrst hready hq

/-- A transition that is not enabled, or idle, is the using up of the choice and nothing more (log entry 12). -/
theorem step_of_disabled {s : State}
    (h : s.nextMove = .deliver ∧ s.deliverEnabled = false ∨ s.nextMove = .accept ∧ s.acceptEnabled = false ∨
      s.nextMove = .idle) : step s = .next s.beginStep := by
  obtain ⟨hmove, hoff⟩ | ⟨hmove, hoff⟩ | hmove := h
  · rw [step_eq, hmove]
    exact deliver_of_disabled (by simpa using hoff)
  · rw [step_eq, hmove]
    exact congrArg Host.Outcome.next (State.accept_of_disabled (by simpa using hoff))
  · rw [step_eq, hmove]
    rfl

/-- Settles O33: an enabled deliver step runs the request at the head, which is the operation it decodes to. -/
theorem stepRunsDecodedRequest : Obligations.StepRunsDecodedRequest := by
  unfold Obligations.StepRunsDecodedRequest
  intro s q rest i hrst hready hmove hq hdecode _
  rw [step_deliver_of_enabled hmove hrst hready hq, runRequest_of_decode hdecode]

/-- Settles O34: the enabled case is the answering of the head; the held one is a disabled transition. -/
theorem deliverStep : Obligations.DeliverStep := by
  unfold Obligations.DeliverStep
  intro s hmove
  refine ⟨fun q rest hrst hready hq => ?_, fun hheld => ?_⟩
  · rw [step_deliver_of_enabled hmove hrst hready hq, runRequest_eq]
    simp [State.respond, hq]
  · have hoff := s.deliverEnabled_eq_false_iff.mpr hheld
    exact ⟨_, step_of_disabled (.inl ⟨hmove, hoff⟩), rfl, fun hrst => by simp [hrst]⟩

/-- Settles O35: the enabled case is the accept step itself; held and idle ones are disabled transitions. -/
theorem acceptStep : Obligations.AcceptStep := by
  unfold Obligations.AcceptStep
  refine fun s => ⟨fun hmove => ⟨fun q rest hrst hroom hq => ?_, fun hheld => ?_⟩, fun hmove => ?_⟩
  · rw [step_eq, hmove, State.beginStep_of_released hrst]
    exact congrArg Host.Outcome.next (State.accept_of_enabled hrst hroom hq)
  · have hoff := s.acceptEnabled_eq_false_iff.mpr hheld
    exact ⟨_, step_of_disabled (.inr (.inl ⟨hmove, hoff⟩)), rfl, fun hrst => by simp [hrst]⟩
  · exact ⟨_, step_of_disabled (.inr (.inr hmove)), rfl, fun hrst => by simp [hrst]⟩

/-- Settles O36: a disabled transition is the beginning of its step and no more. -/
theorem disabledTransitionsChangeNothing : Obligations.DisabledTransitionsChangeNothing := by
  unfold Obligations.DisabledTransitionsChangeNothing
  intro s h
  rw [step_of_disabled h, State.beginStep_eq]

/-- Settles O39: both steps deliver `EXEC` of the same request, in which the build cannot be seen. -/
theorem responseOfRequestAlone : Obligations.ResponseOfRequestAlone := by
  unfold Obligations.ResponseOfRequestAlone
  intro s s' q rest rest' hrst hready hmove hq hrst' hready' hmove' hq'
  refine ⟨_, _, answer s.build q, (deliverStep s hmove).1 q rest hrst hready hq,
    (deliverStep s' hmove').1 q rest' hrst' hready' hq', rfl, ?_⟩
  rw [answer_build_irrelevant s.build s'.build q]

/-- No transition changes the build or takes back a response, and only a deliver step adds one (R18, R26, R93). -/
theorem takeMove_build_delivered {m : Move} {s t : State} (h : takeMove m s = .next t) :
    t.build = s.build ∧ ∃ rs, t.delivered = s.delivered ++ rs ∧ rs.length ≤ 1 := by
  have hquiet : ∀ {u : State}, u.build = s.build → u.delivered = s.delivered →
      u.build = s.build ∧ ∃ rs, u.delivered = s.delivered ++ rs ∧ rs.length ≤ 1 :=
    fun hbuild hdelivered => ⟨hbuild, [], by simp [hdelivered], by simp⟩
  obtain ⟨q, -, rfl⟩ | ⟨level, -, rfl⟩ | ⟨level, -, rfl⟩ | ⟨-, rfl⟩ | ⟨-, -, q, qs, -, rfl⟩ | ⟨-, -, rfl⟩ | ⟨-, rfl⟩ :=
    takeMove_next h
  · exact hquiet rfl rfl
  · exact hquiet rfl rfl
  · exact hquiet rfl rfl
  · exact hquiet (by simp) (by simp)
  · exact ⟨rfl, [answer s.build q], rfl, by simp⟩
  · exact hquiet rfl rfl
  · exact hquiet rfl rfl

/-- Settles O42: beginning a step touches neither field, and no transition does more than add one response. -/
theorem stepKeepsBuildAndResponses : Obligations.StepKeepsBuildAndResponses := by
  unfold Obligations.StepKeepsBuildAndResponses
  intro s t hstep
  rw [step_eq] at hstep
  simpa using takeMove_build_delivered hstep

/-- Settles O43, by the two fields of `State.reset`. -/
theorem resetStateValues : Obligations.ResetStateValues := ⟨State.reset_inflight, State.reset_rst⟩

end Sys2Proof.Machine
end

section
/-!
Runs in which reset stays released and the host stays ready (R26, R96): each deliver transition answers one more of
the requests that were in flight at the start.
-/

namespace Sys2Proof.Machine

/-- Along such transitions reset stays released and the host stays ready. -/
theorem takeMove_steady {m : Move} {s t : State} (hrst : s.rst = false) (hready : s.ready = true)
    (hreset : m ≠ .reset true) (hstop : m ≠ .ready false) (h : takeMove m s = .next t) :
    t.rst = false ∧ t.ready = true := by
  obtain ⟨q, -, rfl⟩ | ⟨level, rfl, rfl⟩ | ⟨level, rfl, rfl⟩ | ⟨-, rfl⟩ | ⟨-, -, q, qs, -, rfl⟩ | ⟨-, -, rfl⟩ |
    ⟨-, rfl⟩ := takeMove_next h
  · exact ⟨hrst, hready⟩
  · exact ⟨hrst, by simpa using hstop⟩
  · exact ⟨by simpa using hreset, hready⟩
  · exact ⟨by simpa using hrst, by simpa using hready⟩
  · exact ⟨hrst, hready⟩
  · exact ⟨hrst, hready⟩
  · exact ⟨hrst, hready⟩

/-- The responses delivered, followed by those owed to the `n` oldest requests in flight. -/
def State.deliveredThenOwed (s : State) (n : Nat) : List Response :=
  s.delivered ++ answers s.build (s.inflight.take n)

/-- Where nothing is delivered and nothing leaves the queue, the oldest requests stay the oldest. -/
theorem State.deliveredThenOwed_prefix {s t : State} (hbuild : t.build = s.build)
    (hdelivered : t.delivered = s.delivered) (hinflight : s.inflight <+: t.inflight) (n : Nat) :
    s.deliveredThenOwed n <+: t.deliveredThenOwed n := by
  rw [State.deliveredThenOwed, State.deliveredThenOwed, hbuild, hdelivered]
  exact (List.prefix_append_right_inj _).mpr ((hinflight.take n).map _)

/-- A deliver transition turns one response owed into one delivered; any other takes none of either away. -/
theorem takeMove_deliveredThenOwed {m : Move} {s t : State} (hrst : s.rst = false) (hready : s.ready = true)
    (hreset : m ≠ .reset true) (h : takeMove m s = .next t) (n : Nat) :
    s.deliveredThenOwed (n + if m = .deliver then 1 else 0) <+: t.deliveredThenOwed n := by
  obtain ⟨q, rfl, rfl⟩ | ⟨level, rfl, rfl⟩ | ⟨level, rfl, rfl⟩ | ⟨rfl, rfl⟩ | ⟨rfl, -, q, qs, hq, rfl⟩ |
    ⟨rfl, hoff, rfl⟩ | ⟨rfl, rfl⟩ := takeMove_next h
  · exact State.deliveredThenOwed_prefix rfl rfl List.prefix_rfl n
  · exact State.deliveredThenOwed_prefix rfl rfl List.prefix_rfl n
  · obtain rfl : level = false := by simpa using hreset
    exact State.deliveredThenOwed_prefix rfl rfl List.prefix_rfl n
  · refine State.deliveredThenOwed_prefix (by simp) (by simp) ?_ n
    obtain ⟨q, qs, -, -, -, hacc⟩ | ⟨-, hacc⟩ := s.accept_cases
    · simp [hacc]
    · simp [hacc]
  · simp [State.deliveredThenOwed, answers, hq]
  · have hempty : t.inflight = [] := by simpa [hrst, hready] using t.deliverEnabled_eq_false_iff.mp hoff
    simp [State.deliveredThenOwed, hempty]
  · exact List.prefix_rfl

/-- A steady run answers, of the requests in flight at its start, as many as it has deliver transitions. -/
theorem State.Runs.answers_oldest {s t : State} {ms : List Move} (hrst : s.rst = false) (hready : s.ready = true)
    (hsteady : Steady ms) (h : s.Runs ms t) : s.deliveredThenOwed (ms.count .deliver) <+: t.delivered := by
  induction ms generalizing s with
  | nil =>
    obtain rfl := State.runs_nil.mp h
    simp [State.deliveredThenOwed, answers]
  | cons m ms ih =>
    obtain ⟨hreset, hstop⟩ := hsteady
    obtain ⟨hreset, hresets⟩ := List.ne_and_not_mem_of_not_mem_cons hreset
    obtain ⟨hstop, hstops⟩ := List.ne_and_not_mem_of_not_mem_cons hstop
    obtain ⟨u, hu, hrun⟩ := State.runs_cons.mp h
    obtain ⟨hrstu, hreadyu⟩ := takeMove_steady (by simpa using hrst) (by simpa using hready) hreset.symm hstop.symm hu
    have hfirst := takeMove_deliveredThenOwed (by simpa using hrst) (by simpa using hready) hreset.symm hu
      (ms.count .deliver)
    have hrest := ih hrstu hreadyu ⟨hresets, hstops⟩ hrun
    rw [List.count_cons]
    simpa [State.deliveredThenOwed, hrst] using hfirst.trans hrest

/-- Settles O51: with as many deliver transitions as requests in flight, the oldest answered are all of them. -/
theorem deliveriesDrainTheQueue : Obligations.DeliveriesDrainTheQueue := by
  unfold Obligations.DeliveriesDrainTheQueue
  intro s ms hrst hready hsteady hcount
  obtain ⟨t, hrun⟩ := State.runs_total ms s
  have hanswered := hrun.answers_oldest hrst hready hsteady
  rw [State.deliveredThenOwed, List.take_of_length_le hcount] at hanswered
  exact ⟨t, hrun, hanswered⟩

end Sys2Proof.Machine
end

section
/-!
The order of fields and lanes as numbers (R31, R32): field `i` is digit `i` of a word in base 16, and lane `k` is
digit `k` of a register in base 256.
-/

namespace Sys2Proof.Machine

theorem nib_toNat_base16 (v : Word) (i : Nat) : (nib v i).toNat = v.toNat / 16 ^ i % 16 := by
  rw [nib_toNat, Nat.pow_mul]

theorem lane_toNat_base256 {n : Nat} (V : BitVec n) (k : Nat) : (lane V k).toNat = V.toNat / 256 ^ k % 256 := by
  rw [lane_toNat, Nat.pow_mul]

/-- A 16-bit lane holds two byte lanes, the lower-numbered one in its low half. -/
theorem lane16_eq_append (V : VReg) (k : Nat) : lane16 V k = lane V (2 * k + 1) ++ lane V (2 * k) := by
  apply BitVec.eq_of_getLsbD_eq
  intro j hj
  rw [BitVec.getLsbD_append]
  by_cases hlow : j < 8
  · simp only [lane16_getLsbD, lane_getLsbD, hlow, hj, show 16 * k + j = 8 * (2 * k) + j by omega, if_true]
  · simp only [lane16_getLsbD, lane_getLsbD, hlow, hj, show j - 8 < 8 by omega, if_false,
      show 16 * k + j = 8 * (2 * k + 1) + (j - 8) by omega]

theorem lane16_toNat (V : VReg) (k : Nat) :
    (lane16 V k).toNat = 256 * (lane V (2 * k + 1)).toNat + (lane V (2 * k)).toNat := by
  rw [lane16_eq_append, BitVec.toNat_append, ← Nat.shiftLeft_add_eq_or_of_lt (lane V (2 * k)).isLt,
    Nat.shiftLeft_eq, Nat.mul_comm]

/-- Loading neither moves nor changes a lane, and those that the word does not have are zero on both sides. -/
theorem lane_load (w : Word) (k : Nat) : lane (load w) k = lane w k := by
  apply BitVec.eq_of_getLsbD_eq
  intro j _
  rw [lane_getLsbD, lane_getLsbD, load_getLsbD]

theorem load_low_half (w : Word) : (load w).extractLsb' 0 64 = w := by
  apply BitVec.eq_of_getLsbD_eq
  intro j hj
  rw [BitVec.getLsbD_extractLsb', load_getLsbD, decide_eq_true hj, Bool.true_and, Nat.zero_add]

/-- Settles O8: a field is a base-16 digit, and a byte is its two fields one above the other. -/
theorem fieldOrder : Obligations.FieldOrder := by
  unfold Obligations.FieldOrder
  refine fun v => ⟨fun i _ => nib_toNat_base16 v i, fun k _ => ?_⟩
  rw [lane_word]
  exact ⟨BitVec.extractLsb'_append_eq_right, BitVec.extractLsb'_append_eq_left⟩

/-- Settles O9: a lane is a base-256 digit, a 16-bit lane is its two bytes, and a load moves no bit. -/
theorem laneOrder : Obligations.LaneOrder := by
  unfold Obligations.LaneOrder
  exact ⟨fun V => ⟨fun k _ => lane_toNat_base256 V k, fun k _ => lane16_toNat V k⟩,
    fun w => ⟨load_low_half w, fun k _ => lane_load w k⟩⟩

end Sys2Proof.Machine
end

section
/-!
Runs in which reset stays released (R38): what was accepted on the way, of the requests waiting at the start and
those offered since, is in flight or answered at the end, and the rest still waits.
-/

namespace Sys2Proof.Machine

@[simp] theorem answers_append (b : Config.Build) (qs rs : List Request) :
    answers b (qs ++ rs) = answers b qs ++ answers b rs := List.map_append

@[simp] theorem answers_cons (b : Config.Build) (q : Request) (qs : List Request) :
    answers b (q :: qs) = answer b q :: answers b qs := rfl

theorem offersOf_cons (m : Move) (ms : List Move) : offersOf (m :: ms) = offersOf [m] ++ offersOf ms := by
  simp [offersOf]

/-- On the way from `s` to `t`, on which `offers` were made, the requests `accepted` were taken from the front of
those waiting, once each and in order, and each is in flight or answered in its turn. -/
structure AcceptedInOrder (s t : State) (offers accepted : List Request) : Prop where
  build : t.build = s.build
  rst : t.rst = s.rst
  waiting : s.offered ++ offers = accepted ++ t.offered
  owed : t.delivered ++ answers s.build t.inflight = s.delivered ++ answers s.build (s.inflight ++ accepted)

theorem AcceptedInOrder.trans {s u t : State} {offers offers' accepted accepted' : List Request}
    (h : AcceptedInOrder s u offers accepted) (h' : AcceptedInOrder u t offers' accepted') :
    AcceptedInOrder s t (offers ++ offers') (accepted ++ accepted') where
  build := h'.build.trans h.build
  rst := h'.rst.trans h.rst
  waiting := by
    calc s.offered ++ (offers ++ offers')
        = accepted ++ (u.offered ++ offers') := by rw [← List.append_assoc, h.waiting, List.append_assoc]
      _ = (accepted ++ accepted') ++ t.offered := by rw [h'.waiting, List.append_assoc]
  owed := by
    have howed' := h'.owed
    rw [h.build] at howed'
    calc t.delivered ++ answers s.build t.inflight
        = (u.delivered ++ answers s.build u.inflight) ++ answers s.build accepted' := by
          rw [howed', answers_append, List.append_assoc]
      _ = s.delivered ++ answers s.build (s.inflight ++ (accepted ++ accepted')) := by
          rw [h.owed]; simp

/-- Where the channels, the queue and the reset input stay as they are, nothing was accepted. -/
theorem AcceptedInOrder.of_unchanged {s t : State} (hbuild : t.build = s.build) (hrst : t.rst = s.rst)
    (hoffered : t.offered = s.offered) (hdelivered : t.delivered = s.delivered) (hinflight : t.inflight = s.inflight) :
    AcceptedInOrder s t [] [] :=
  ⟨hbuild, hrst, by simp [hoffered], by simp [hdelivered, hinflight]⟩

/-- A transition moves one request at most, from the channel to the queue or from the queue to the answers. -/
theorem takeMove_acceptedInOrder {m : Move} {s t : State} (hrst : s.rst = false) (hreset : m ≠ .reset true)
    (h : takeMove m s = .next t) : ∃ accepted, AcceptedInOrder s t (offersOf [m]) accepted := by
  obtain ⟨q, rfl, rfl⟩ | ⟨level, rfl, rfl⟩ | ⟨level, rfl, rfl⟩ | ⟨rfl, rfl⟩ | ⟨rfl, -, q, qs, hq, rfl⟩ |
    ⟨rfl, -, rfl⟩ | ⟨rfl, rfl⟩ := takeMove_next h
  · exact ⟨[], rfl, rfl, rfl, by simp⟩
  · exact ⟨[], .of_unchanged rfl rfl rfl rfl rfl⟩
  · obtain rfl : level = false := by simpa using hreset
    exact ⟨[], .of_unchanged rfl hrst.symm rfl rfl rfl⟩
  · obtain ⟨q, qs, -, -, hq, hacc⟩ | ⟨-, hacc⟩ := s.accept_cases
    · rw [hacc]
      exact ⟨[q], rfl, rfl, by simp [offersOf, hq], rfl⟩
    · rw [hacc]
      exact ⟨[], .of_unchanged rfl rfl rfl rfl rfl⟩
  · exact ⟨[], rfl, rfl, by simp [offersOf], by simp [hq]⟩
  · exact ⟨[], .of_unchanged rfl rfl rfl rfl rfl⟩
  · exact ⟨[], .of_unchanged rfl rfl rfl rfl rfl⟩

/-- With reset released, settling the transitions to come and beginning a step accept nothing. -/
theorem beginStep_acceptedInOrder {s : State} (hrst : s.rst = false) (ms : List Move) :
    AcceptedInOrder s ({ s with schedule := ms } : State).beginStep [] [] :=
  .of_unchanged rfl rfl rfl rfl (by simp [hrst])

/-- A run in which reset stays released accepts requests in the order of their waiting and loses none. -/
theorem State.Runs.acceptedInOrder {s t : State} {ms : List Move} (hrst : s.rst = false)
    (hreset : Move.reset true ∉ ms) (h : s.Runs ms t) : ∃ accepted, AcceptedInOrder s t (offersOf ms) accepted := by
  induction ms generalizing s with
  | nil =>
    obtain rfl := State.runs_nil.mp h
    exact ⟨[], .of_unchanged rfl rfl rfl rfl rfl⟩
  | cons m ms ih =>
    obtain ⟨hfirst, hrest⟩ := List.ne_and_not_mem_of_not_mem_cons hreset
    obtain ⟨u, hu, hrun⟩ := State.runs_cons.mp h
    obtain ⟨_, hmove⟩ := takeMove_acceptedInOrder (by simpa using hrst) hfirst.symm hu
    have hstep := (beginStep_acceptedInOrder hrst (m :: ms)).trans hmove
    obtain ⟨_, hlater⟩ := ih (hstep.rst.trans hrst) hrest hrun
    rw [offersOf_cons]
    exact ⟨_, hstep.trans hlater⟩

/-- Settles O46: `k` is the number of requests accepted in the run. -/
theorem responsesInOrderExactlyOnce : Obligations.ResponsesInOrderExactlyOnce := by
  unfold Obligations.ResponsesInOrderExactlyOnce
  intro s ms hrst hreset
  obtain ⟨t, hrun⟩ := State.runs_total ms s
  obtain ⟨accepted, hacc⟩ := hrun.acceptedInOrder hrst hreset
  refine ⟨t, accepted.length, hrun, ?_, ?_, ?_⟩
  · simp [hacc.waiting]
  · rw [hacc.waiting, List.drop_left]
  · rw [hacc.waiting, List.take_left, hacc.owed]

end Sys2Proof.Machine
end

section
/-!
The two packets and the decoder (R43, R44, R47): a packet is its fields one above the other, so it is their number in
mixed radix, and reading the fields undoes writing them; the op code alone says which outcome a request has.
-/

namespace Sys2Proof

/-- One value above another is a number of two digits. -/
theorem append_toNat {m n : Nat} (x : BitVec m) (y : BitVec n) : (x ++ y).toNat = x.toNat * 2 ^ n + y.toNat := by
  rw [BitVec.toNat_append, ← Nat.shiftLeft_add_eq_or_of_lt y.isLt, Nat.shiftLeft_eq]

/-! ### The request packet (R43) -/

theorem Request.pack_toNat (q : Request) :
    q.pack.toNat = q.op.toNat * 2 ^ 128 + q.idx.toNat * 2 ^ 64 + q.src.toNat := by
  rw [Request.pack, append_toNat, append_toNat]
  omega

@[simp] theorem Request.unpack_pack (q : Request) : Request.unpack q.pack = q := by
  have hidx : q.pack.extractLsb' 64 64 = q.idx := by
    rw [Request.pack, BitVec.extractLsb'_append_eq_of_le (Nat.le_refl 64)]
    exact BitVec.extractLsb'_append_eq_right
  have hsrc : q.pack.extractLsb' 0 64 = q.src := BitVec.extractLsb'_append_eq_right
  rw [Request.unpack, Laws.OpField.op_of_pack, hidx, hsrc]

@[simp] theorem Request.pack_unpack (p : ReqPacket) : (Request.unpack p).pack = p := by
  have hhigh : p.extractLsb' 128 8 ++ p.extractLsb' 64 64 = p.extractLsb' 64 72 :=
    BitVec.extractLsb'_append_extractLsb'_eq_extractLsb' rfl
  have hwhole : p.extractLsb' 64 72 ++ p.extractLsb' 0 64 = p.extractLsb' 0 136 :=
    BitVec.extractLsb'_append_extractLsb'_eq_extractLsb' rfl
  rw [Request.pack, Request.unpack, hhigh, hwhole, BitVec.extractLsb'_eq_self]

theorem Request.unpack_src_toNat (p : ReqPacket) : (Request.unpack p).src.toNat = p.toNat % 2 ^ 64 := by
  simp [Request.unpack, BitVec.extractLsb'_toNat]

theorem Request.unpack_idx_toNat (p : ReqPacket) : (Request.unpack p).idx.toNat = p.toNat / 2 ^ 64 % 2 ^ 64 := by
  simp [Request.unpack, BitVec.extractLsb'_toNat, Nat.shiftRight_eq_div_pow]

/-- No bit lies above the op code, so nothing has to be cut off. -/
theorem Request.unpack_op_toNat (p : ReqPacket) : (Request.unpack p).op.toNat = p.toNat / 2 ^ 128 := by
  have hbound : p.toNat / 2 ^ 128 < 2 ^ 8 := Nat.div_lt_of_lt_mul p.isLt
  rw [Request.unpack, BitVec.extractLsb'_toNat, Nat.shiftRight_eq_div_pow, Nat.mod_eq_of_lt hbound]

/-- Settles O1: the number of a packet, the two round trips, and the three fields. -/
theorem requestPacketLayout : Obligations.RequestPacketLayout := by
  unfold Obligations.RequestPacketLayout
  exact ⟨fun q => ⟨q.pack_toNat, q.unpack_pack⟩, fun p => ⟨Request.pack_unpack p, Request.unpack_src_toNat p,
    Request.unpack_idx_toNat p, Request.unpack_op_toNat p⟩⟩

/-! ### The decoder (R47) -/

theorem decode_of_op_zero {q : Request} (h : q.op = 0x00) : decode q = .instr (.perm q.src q.idx) := by
  simp [decode, opPerm, h]

theorem decode_of_op_one {q : Request} (h : q.op = 0x01) : decode q = .instr (.permref q.src q.idx) := by
  simp [decode, opPerm, opPermref, h]

theorem decode_of_two_le_op {q : Request} (h : 2 ≤ q.op.toNat) : decode q = .rejected (.reservedOp q.op) := by
  have hperm : q.op ≠ opPerm := fun heq => by simp [heq, opPerm] at h
  have hpermref : q.op ≠ opPermref := fun heq => by simp [heq, opPermref] at h
  rw [decode, if_neg hperm, if_neg hpermref]

/-- The op codes that are not reserved are the two assigned ones (R46, R48). -/
theorem not_two_le_op_iff (op : Byte) : ¬ 2 ≤ op.toNat ↔ op = 0x00 ∨ op = 0x01 := by
  bv_omega

/-- Settles O3: one equation of the decoder for each outcome. -/
theorem decodeReadsOpOnly : Obligations.DecodeReadsOpOnly := by
  unfold Obligations.DecodeReadsOpOnly
  exact fun idx src => ⟨decode_of_op_zero rfl, decode_of_op_one rfl, fun op hop => decode_of_two_le_op hop⟩

/-! ### The response packet (R44) -/

theorem Response.pack_toNat (r : Response) : r.pack.toNat = (if r.err then 1 else 0) * 2 ^ 64 + r.dst.toNat := by
  rw [Response.pack, append_toNat, BitVec.toNat_ofBool, Bool.toNat, Bool.cond_eq_ite]

@[simp] theorem Response.unpack_pack (r : Response) : Response.unpack r.pack = r := by
  have hdst : r.pack.extractLsb' 0 64 = r.dst := BitVec.extractLsb'_append_eq_right
  have herr : r.pack.getLsbD 64 = r.err := by
    rw [Response.pack, BitVec.getLsbD_append, if_neg (by decide)]
    simp
  rw [Response.unpack, hdst, herr]

@[simp] theorem Response.pack_unpack (p : RspPacket) : (Response.unpack p).pack = p := by
  have herr : BitVec.ofBool (p.getLsbD 64) = p.extractLsb' 64 1 := by
    apply BitVec.eq_of_getLsbD_eq
    intro j hj
    obtain rfl : j = 0 := by omega
    simp
  have hwhole : p.extractLsb' 64 1 ++ p.extractLsb' 0 64 = p.extractLsb' 0 65 :=
    BitVec.extractLsb'_append_extractLsb'_eq_extractLsb' rfl
  rw [Response.pack, Response.unpack, herr, hwhole, BitVec.extractLsb'_eq_self]

end Sys2Proof

namespace Sys2Proof.Machine

/-- `err` marks exactly the reserved op codes (R22, R44, R80). -/
theorem answer_err (b : Config.Build) (q : Request) : (answer b q).err = decide (2 ≤ q.op.toNat) := by
  by_cases hreserved : 2 ≤ q.op.toNat
  · simp [answer, decode_of_two_le_op hreserved, hreserved]
  · obtain hop | hop := (not_two_le_op_iff q.op).mp hreserved
    · simp [answer, decode_of_op_zero hop, hop]
    · simp [answer, decode_of_op_one hop, hop]

/-- Settles O2: the number of a packet, the two round trips, and the op codes that `err` marks. -/
theorem responsePacketLayout : Obligations.ResponsePacketLayout := by
  unfold Obligations.ResponsePacketLayout
  refine ⟨fun r => ⟨r.pack_toNat, r.unpack_pack⟩, Response.pack_unpack, fun b q => ?_⟩
  rw [answer_err, decide_eq_false_iff_not, decide_eq_true_iff]
  exact ⟨not_two_le_op_iff q.op, Iff.rfl⟩

end Sys2Proof.Machine
end

section
/-!
The pseudo-instructions (R51): each is one `PERM` whose constant index array names, for every field of the result, a
source field that arithmetic on the field's number gives.
-/

namespace Sys2Proof.Machine

/-- `PERM` responds with the contract's result on every build, with `err` 0 (R69, R71). -/
theorem exec_perm_eq (src idx : Word) (s : State) :
    exec (.perm src idx) s = .next (s.respond { dst := nperm src idx, err := false }) := by
  rw [← simd_eq_nperm s.build src idx]
  rfl

/-- An index array put together from field numbers picks the source fields of these numbers. -/
theorem nib_nperm_ofNibs (src : Word) (f : Nat → Nibble) {i : Nat} (hi : i < 16) :
    nib (nperm src (ofNibs f)) i = nib src (f i).toNat := by
  rw [nib_nperm src _ hi, nib_ofNibs f hi]

/-! ### The four index arrays, field by field -/

theorem identityIndex_eq_ofNibs : identityIndex = ofNibs fun i => BitVec.ofNat 4 i := by decide

theorem constantIndex_eq_ofNibs : ∀ k : Nibble, constantIndex k = ofNibs fun _ => k := by decide

theorem reverseIndex_eq_ofNibs : (0x0123456789ABCDEF : Word) = ofNibs fun i => BitVec.ofNat 4 (15 - i) := by decide

theorem rotateIndex_eq_ofNibs : (0x0FEDCBA987654321 : Word) = ofNibs fun i => BitVec.ofNat 4 (i + 1) := by decide

/-! ### What a permutation with each of them gives -/

theorem nperm_identityIndex (src : Word) : nperm src identityIndex = src := by
  apply eq_of_nib_eq
  intro i hi
  rw [identityIndex_eq_ofNibs, nib_nperm_ofNibs src _ hi, BitVec.toNat_ofNat, Nat.mod_eq_of_lt hi]

theorem nib_nperm_constantIndex (src : Word) (k : Nibble) {i : Nat} (hi : i < 16) :
    nib (nperm src (constantIndex k)) i = nib src k.toNat := by
  rw [constantIndex_eq_ofNibs, nib_nperm_ofNibs src _ hi]

theorem nib_nperm_reverseIndex (src : Word) {i : Nat} (hi : i < 16) :
    nib (nperm src 0x0123456789ABCDEF) i = nib src (15 - i) := by
  rw [reverseIndex_eq_ofNibs, nib_nperm_ofNibs src _ hi, BitVec.toNat_ofNat, Nat.mod_eq_of_lt (by omega)]

theorem nib_nperm_rotateIndex (src : Word) {i : Nat} (hi : i < 16) :
    nib (nperm src 0x0FEDCBA987654321) i = nib src ((i + 1) % 16) := by
  rw [rotateIndex_eq_ofNibs, nib_nperm_ofNibs src _ hi, BitVec.toNat_ofNat]

/-- Rotating a word right by one field moves every field down by one, and field 0 to the top. -/
theorem nib_rotateRight_four (src : Word) {i : Nat} (hi : i < 16) :
    nib (src.rotateRight 4) i = nib src ((i + 1) % 16) := by
  apply BitVec.eq_of_getLsbD_eq
  intro j hj
  rw [nib_getLsbD, nib_getLsbD, BitVec.getLsbD_rotateRight]
  by_cases htop : i = 15
  · have hwrap : ¬ 4 * i + j < 64 - 4 % 64 := by omega
    have hbit : 4 * i + j - (64 - 4 % 64) = 4 * ((i + 1) % 16) + j := by omega
    have hin : 4 * i + j < 64 := by omega
    rw [decide_eq_false hwrap, cond_false, hbit, decide_eq_true hin, Bool.true_and]
  · have hbelow : 4 * i + j < 64 - 4 % 64 := by omega
    have hbit : 4 % 64 + (4 * i + j) = 4 * ((i + 1) % 16) + j := by omega
    rw [decide_eq_true hbelow, cond_true, hbit]

theorem nperm_rotateIndex (src : Word) : nperm src 0x0FEDCBA987654321 = src.rotateRight 4 :=
  eq_of_nib_eq fun _ hi => (nib_nperm_rotateIndex src hi).trans (nib_rotateRight_four src hi).symm

/-! ### The pseudo-instructions -/

theorem exec_nident (src : Word) (s : State) :
    exec (.nident src) s = .next (s.respond { dst := src, err := false }) := by
  rw [Instr.nident, exec_perm_eq, nperm_identityIndex]

/-- Settles O7: each expansion is the definition, and each result is the contract's for its constant index. -/
theorem pseudoInstructions : Obligations.PseudoInstructions := by
  unfold Obligations.PseudoInstructions
  refine fun src s => ⟨⟨rfl, exec_nident src s⟩, fun k => ⟨rfl, _, exec_perm_eq .., ?_⟩, ⟨rfl, _, exec_perm_eq .., ?_⟩,
    ⟨rfl, _, exec_perm_eq .., nperm_rotateIndex src, ?_⟩⟩
  · exact fun i hi => nib_nperm_constantIndex src k hi
  · exact fun i hi => nib_nperm_reverseIndex src hi
  · exact fun i hi => nib_nperm_rotateIndex src hi

end Sys2Proof.Machine
end

section
/-!
The stages of widening (R52 to R57), by the halves of each lane: the load leaves the upper lanes zero, the shift moves
every half one place down, and the mask keeps low halves alone, so nothing above bit 63 of the loaded register and no
high half of a shifted lane can be seen after it.
-/

namespace Sys2Proof.Machine

/-! ### Load and shift (R52, R53) -/

/-- A lane that lies wholly above the top bit is zero. -/
theorem lane_of_ge {n : Nat} (V : BitVec n) {k : Nat} (h : n ≤ 8 * k) : lane V k = 0 := by
  apply BitVec.eq_of_getLsbD_eq
  intro j _
  rw [lane_getLsbD, BitVec.getLsbD_of_ge V _ (by omega), Bool.and_false]
  exact BitVec.getLsbD_zero.symm

theorem lane_low_half (V : VReg) {k : Nat} (hk : k < 8) : lane (V.extractLsb' 0 64) k = lane V k := by
  apply BitVec.eq_of_getLsbD_eq
  intro j hj
  rw [lane_getLsbD, lane_getLsbD, BitVec.getLsbD_extractLsb', decide_eq_true (show 8 * k + j < 64 by omega),
    Bool.true_and, Nat.zero_add]

theorem lane_shift_low (R : VReg) (k : Nat) :
    (lane (shift R) k).extractLsb' 0 4 = (lane R k).extractLsb' 4 4 := by
  apply BitVec.eq_of_getLsbD_eq
  intro j hj
  have hbit : 8 * k + (0 + j) + 4 = 8 * k + (4 + j) := by omega
  simp only [BitVec.getLsbD_extractLsb', lane_getLsbD, shift_getLsbD, hbit, show 0 + j < 8 by omega,
    show 4 + j < 8 by omega]

/-- Above lane 15 there is nothing, so the shift brings zero into its high half. -/
theorem lane_shift_high (R : VReg) (k : Nat) :
    (lane (shift R) k).extractLsb' 4 4 = (lane R (k + 1)).extractLsb' 0 4 := by
  apply BitVec.eq_of_getLsbD_eq
  intro j hj
  have hbit : 8 * k + (4 + j) + 4 = 8 * (k + 1) + (0 + j) := by omega
  simp only [BitVec.getLsbD_extractLsb', lane_getLsbD, shift_getLsbD, hbit, show 0 + j < 8 by omega,
    show 4 + j < 8 by omega]

/-- Settles O10: the lanes above a word are zero, and each half of a shifted lane comes from one place up. -/
theorem shiftMovesNibblesDown : Obligations.ShiftMovesNibblesDown := by
  unfold Obligations.ShiftMovesNibblesDown
  refine ⟨fun w k _ hk => ?_, fun R k hk => ⟨lane_shift_low R k, ?_⟩⟩
  · rw [lane_load, lane_of_ge w (by omega)]
  · rw [lane_shift_high]
    by_cases htop : k < 15
    · rw [if_pos htop]
    · rw [if_neg htop, lane_of_ge R (by omega)]
      exact BitVec.extractLsb'_zero

/-! ### Interleave and mask (R54, R55) -/

theorem lane_interleave_even (R S : VReg) {k : Nat} (hk : k < 8) : lane (interleave R S) (2 * k) = lane R k := by
  rw [lane_interleave R S (by omega), if_pos (by omega), Nat.mul_div_cancel_left k (by decide)]

theorem lane_interleave_odd (R S : VReg) {k : Nat} (hk : k < 8) : lane (interleave R S) (2 * k + 1) = lane S k := by
  rw [lane_interleave R S (by omega), if_neg (by omega), show (2 * k + 1) / 2 = k by omega]

/-- Sixteen lanes are eight even and eight odd ones. -/
theorem eq_of_lane_even_odd {V W : VReg}
    (h : ∀ k < 8, lane V (2 * k) = lane W (2 * k) ∧ lane V (2 * k + 1) = lane W (2 * k + 1)) : V = W := by
  apply eq_of_lane_eq
  intro j hj
  obtain ⟨heven, hodd⟩ := h (j / 2) (by omega)
  obtain hpar | hpar : j = 2 * (j / 2) ∨ j = 2 * (j / 2) + 1 := by omega
  · rwa [← hpar] at heven
  · rwa [← hpar] at hodd

theorem interleave_congr {R S R' S' : VReg} (h : ∀ k < 8, lane R k = lane R' k ∧ lane S k = lane S' k) :
    interleave R S = interleave R' S' := by
  apply eq_of_lane_even_odd
  intro k hk
  obtain ⟨hR, hS⟩ := h k hk
  simp only [lane_interleave_even _ _ hk, lane_interleave_odd _ _ hk, hR, hS, and_self]

/-- A masked lane is a zero half above the low half of the lane. -/
theorem lane_mask_eq_append (I : VReg) {k : Nat} (hk : k < 16) :
    lane (mask I) k = 0#4 ++ (lane I k).extractLsb' 0 4 := by
  have hbyte : ∀ x : Byte, x &&& 0x0F = 0#4 ++ x.extractLsb' 0 4 := by decide
  rw [lane_mask I hk, hbyte]

/-- Settles O11: each lane of the interleave is one lane of one operand, and a masked lane is its low half. -/
theorem interleaveThenMask : Obligations.InterleaveThenMask := by
  unfold Obligations.InterleaveThenMask
  refine ⟨fun R S k hk => ⟨lane_interleave_even R S hk, lane_interleave_odd R S hk⟩,
    fun R S R' S' h => interleave_congr h, fun I k hk => ?_, by decide, by decide⟩
  rw [lane_mask_eq_append I hk]
  exact ⟨BitVec.extractLsb'_append_eq_left, BitVec.extractLsb'_append_eq_right⟩

/-! ### What the mask hides -/

/-- After the mask only the low halves of the sixteen lanes that the interleave reads can be seen. -/
theorem mask_interleave_congr {R S R' S' : VReg}
    (hR : ∀ k < 8, (lane R k).extractLsb' 0 4 = (lane R' k).extractLsb' 0 4)
    (hS : ∀ k < 8, (lane S k).extractLsb' 0 4 = (lane S' k).extractLsb' 0 4) :
    mask (interleave R S) = mask (interleave R' S') := by
  apply eq_of_lane_even_odd
  intro k hk
  have heven : 2 * k < 16 := by omega
  have hodd : 2 * k + 1 < 16 := by omega
  simp only [lane_mask_eq_append _ heven, lane_mask_eq_append _ hodd, lane_interleave_even _ _ hk,
    lane_interleave_odd _ _ hk, hR k hk, hS k hk, and_self]

/-- Settles O12: the whole-register shift and any other agree on the halves that the mask keeps, and these lie in
bits 63..0. -/
theorem maskHidesUnreadBits : Obligations.MaskHidesUnreadBits := by
  unfold Obligations.MaskHidesUnreadBits
  constructor
  · intro R
    have hlane : ∀ k < 8, lane (load (R.extractLsb' 0 64)) k = lane R k := fun k hk => by
      rw [lane_load, lane_low_half R hk]
    rw [widen]
    apply mask_interleave_congr
    · exact fun k hk => by rw [hlane k hk]
    · exact fun k hk => by rw [lane_shift_low, lane_shift_low, hlane k hk]
  · intro R S hS
    exact mask_interleave_congr (fun _ _ => rfl) fun k hk => (hS k hk).trans (lane_shift_low R k).symm

/-! ### Widening (R57) -/

theorem widen_nibbleLanes (w : Word) : NibbleLanes (widen w) := by
  intro i hi
  rw [lane_widen w hi, BitVec.toNat_setWidth_of_le (by decide)]
  exact Nat.le_of_lt_succ (nib w i).isLt

/-- Settles O13: a widened lane is a field, and so a nibble. -/
theorem widenedLanesAreFields : Obligations.WidenedLanesAreFields := by
  unfold Obligations.WidenedLanesAreFields
  exact ⟨fun w i hi => ⟨lane_widen w hi, widen_nibbleLanes w i hi⟩, by decide⟩

end Sys2Proof.Machine
end

section
/-!
The byte-permute as arithmetic on the index byte (R58), and the permutation stage, which never takes its zeroing
branch (R59).
-/

namespace Sys2Proof.Machine

/-- Bit 7 says that the index byte is at least 128, and its low four bits are its remainder modulo 16. -/
theorem bshufLane_eq (T : VReg) (x : Byte) :
    bshufLane T x = if 128 ≤ x.toNat then 0 else lane T (x.toNat % 16) := by
  have hbits : ∀ x : Byte, x.getLsbD 7 = decide (128 ≤ x.toNat) ∧ (x.extractLsb' 0 4).toNat = x.toNat % 16 := by decide
  obtain ⟨htop, hlow⟩ := hbits x
  simp only [bshufLane, htop, hlow, decide_eq_true_eq]

/-- Settles O14: each lane looks up its own index byte, and a widened index byte is below 16. -/
theorem byteShuffleLanes : Obligations.ByteShuffleLanes := by
  unfold Obligations.ByteShuffleLanes
  refine ⟨fun T X i hi => ?_, fun idx i hi => ?_, by decide⟩
  · rw [lane_bshuf T X hi, bshufLane_eq]
  · have hnibble := widen_nibbleLanes idx i hi
    omega

/-- Settles O15: the permuted lane is a source field, and so a nibble. -/
theorem permutationStage : Obligations.PermutationStage := by
  unfold Obligations.PermutationStage
  exact ⟨fun src idx i hi => ⟨lane_permuted src idx hi, permuted_nibbleLanes src idx i hi⟩, by decide⟩

end Sys2Proof.Machine
end

section
/-!
The two recombinations on their domain (R60 to R64): both put lane `i` of a nibble-valued register in field `i`, so
they are one function there.
-/

namespace Sys2Proof.Machine

/-! ### Multiply-accumulate and unsigned pack (R60 to R62) -/

/-- Two nibbles fill a byte and no more. -/
theorem lane16_madd_le {D : VReg} (hD : NibbleLanes D) {k : Nat} (hk : k < 8) : (lane16 (madd D) k).toNat ≤ 255 := by
  have hmadd := lane16_madd_of_nibbleLanes hD hk
  have heven := hD (2 * k) (by omega)
  have hodd := hD (2 * k + 1) (by omega)
  omega

/-- Settles O16: the products are exact, and their sum is a byte. -/
theorem multiplyAccumulateExact : Obligations.MultiplyAccumulateExact := by
  unfold Obligations.MultiplyAccumulateExact
  refine fun D hD k hk => ⟨?_, lane16_madd_le hD hk⟩
  rw [lane16_madd_of_nibbleLanes hD hk, Nat.add_comm]

/-- On what is not negative, saturation is the smaller of the value and the largest byte. -/
theorem satU8_toNat (n : Nat) : (satU8 n).toNat = min 255 n := by
  by_cases h : n ≤ 255
  · rw [satU8_of_le h, Nat.min_eq_right h]
  · rw [satU8_of_gt (by omega), Nat.min_eq_left (by omega)]
    rfl

theorem lane_packLow (Mv : VReg) {k : Nat} (hk : k < 8) :
    (lane (packLow Mv) k).toNat = min 255 (lane16 Mv k).toNat := by
  rw [packLow, lane_ofBytes _ hk, satU8_toNat]

/-- Settles O17: saturation is a minimum, and a sum of the datapath is never above it. -/
theorem narrowingSaturatesUnsigned : Obligations.NarrowingSaturatesUnsigned := by
  unfold Obligations.NarrowingSaturatesUnsigned
  refine ⟨fun Mv k hk => lane_packLow Mv hk, fun D hD k hk => ?_, by decide, by decide⟩
  rw [narrowMadd, lane_packLow _ hk, Nat.min_eq_right (lane16_madd_le hD hk)]

/-- Either recombination puts each lane in the field of the same number. -/
theorem nib_narrow_eq_lane (n : Config.NarrowStrategy) {D : VReg} (hD : NibbleLanes D) {i : Nat} (hi : i < 16) :
    (nib (narrow n D) i).setWidth 8 = lane D i := by
  apply BitVec.eq_of_toNat_eq
  rw [BitVec.toNat_setWidth_of_le (by decide), nib_narrow n hD i hi]

/-- Settles O18: the default build's case of what both recombinations do. -/
theorem narrowMaddFields : Obligations.NarrowMaddFields := by
  unfold Obligations.NarrowMaddFields
  exact ⟨fun D hD i hi => nib_narrow_eq_lane .maddPack hD hi, by decide⟩

/-! ### Shift, OR and re-permute (R63), and the agreement (R64) -/

/-- On its domain the recombination does not depend on the build. -/
theorem narrow_strategy_irrelevant (n n' : Config.NarrowStrategy) {D : VReg} (hD : NibbleLanes D) :
    narrow n D = narrow n' D := by
  apply eq_of_nib_eq
  intro i hi
  apply BitVec.eq_of_toNat_eq
  rw [nib_narrow n hD i hi, nib_narrow n' hD i hi]

theorem narrowShift_eq_narrowMadd {D : VReg} (hD : NibbleLanes D) : narrowShift D = narrowMadd D :=
  narrow_strategy_irrelevant .shiftOrShuf .maddPack hD

/-- Settles O19: a byte is an odd lane above an even one; the scenario's value is the other recombination's. -/
theorem narrowShiftBytes : Obligations.NarrowShiftBytes := by
  unfold Obligations.NarrowShiftBytes
  refine ⟨fun D hD k hk => lane_narrowShift hD hk, ?_⟩
  rw [narrowShift_eq_narrowMadd (by decide)]
  decide

/-- Settles O20: field `i` of both recombinations is lane `i`, and the sixteen fields are the word. -/
theorem recombinationsAgree : Obligations.RecombinationsAgree := by
  unfold Obligations.RecombinationsAgree
  exact fun D hD => ⟨narrowShift_eq_narrowMadd hD, fun i hi =>
    ⟨nib_narrow_eq_lane .shiftOrShuf hD hi, nib_narrow_eq_lane .maddPack hD hi⟩⟩

end Sys2Proof.Machine
end

section
/-!
The permutation as a function of its fields (R67 to R69), and its laws: what constant and identity index arrays give,
how far an index field reaches, and that index arrays compose and have inverses (R74 to R78).
-/

namespace Sys2Proof.Machine

/-! ### The contract and the two paths (R67 to R69) -/

theorem eq_nperm_of_nib {src idx dst : Word} (h : ∀ i < 16, nib dst i = nib src (nib idx i).toNat) :
    dst = nperm src idx :=
  eq_of_nib_eq fun i hi => (h i hi).trans (nib_nperm src idx hi).symm

/-- The source's scenario S3, by its sixteen fields. -/
theorem nperm_scenario : nperm 0x9E3779B97F4A7C15 0xB74E05C2FD83169A = 0x77AE547C93971FB9 :=
  (eq_nperm_of_nib (by decide)).symm

/-- Settles O21: the contract gives each field, and the sixteen fields are the word. -/
theorem permutationContract : Obligations.PermutationContract := by
  unfold Obligations.PermutationContract
  exact ⟨fun src idx => ⟨fun i hi => nib_nperm src idx hi, fun dst h => eq_nperm_of_nib h⟩, nperm_scenario⟩

/-- Settles O22: every reordering of the iterations still takes each of the sixteen. -/
theorem referenceLoopAnyOrder : Obligations.ReferenceLoopAnyOrder := by
  unfold Obligations.ReferenceLoopAnyOrder
  refine fun src idx => ⟨ref_eq_nperm src idx, fun order horder => refInOrder_eq_nperm src idx fun i hi => ?_⟩
  exact horder.mem_iff.mpr (List.mem_range.mpr hi)

/-- Settles O23: both paths compute the contract. -/
theorem simdEqualsReference : Obligations.SimdEqualsReference := by
  unfold Obligations.SimdEqualsReference
  exact fun b src idx => ⟨(simd_eq_nperm b src idx).trans (ref_eq_nperm src idx).symm, ref_eq_nperm src idx⟩

/-! ### Identity and constant arrays (R74, R75) -/

theorem nib_identityIndex {i : Nat} (hi : i < 16) : (nib identityIndex i).toNat = i := by
  rw [identityIndex_eq_ofNibs, nib_ofNibs _ hi, BitVec.toNat_ofNat, Nat.mod_eq_of_lt hi]

theorem eq_identityIndex_of_nib {idx : Word} (h : ∀ i < 16, (nib idx i).toNat = i) : idx = identityIndex :=
  eq_of_nib_eq fun i hi => BitVec.eq_of_toNat_eq ((h i hi).trans (nib_identityIndex hi).symm)

/-- Settles O24: the sixteen fields determine the index array, and with it each field names itself. -/
theorem identityIndex_gives_source : Obligations.IdentityIndex := by
  unfold Obligations.IdentityIndex
  refine ⟨fun i hi => nib_identityIndex hi, rfl, fun src idx h => ?_⟩
  obtain rfl := eq_identityIndex_of_nib h
  exact ⟨rfl, nperm_identityIndex src⟩

theorem nib_constantIndex (k : Nibble) {i : Nat} (hi : i < 16) : nib (constantIndex k) i = k := by
  rw [constantIndex_eq_ofNibs, nib_ofNibs _ hi]

theorem eq_constantIndex_of_nib {v : Word} {k : Nibble} (h : ∀ i < 16, nib v i = k) : v = constantIndex k :=
  eq_of_nib_eq fun i hi => (h i hi).trans (nib_constantIndex k hi).symm

theorem nperm_constantIndex (src : Word) (k : Nibble) :
    nperm src (constantIndex k) = constantIndex (nib src k.toNat) :=
  eq_constantIndex_of_nib fun _ hi => nib_nperm_constantIndex src k hi

/-- A source with one value in every field is a fixed point, whatever the index array. -/
theorem nperm_constant_source (k : Nibble) (idx : Word) : nperm (constantIndex k) idx = constantIndex k :=
  eq_constantIndex_of_nib fun i hi => by rw [nib_nperm _ idx hi, nib_constantIndex k (nib idx i).isLt]

/-- Settles O25: the index array is the constant one, and so is the result. -/
theorem constantIndexBroadcasts : Obligations.ConstantIndexBroadcasts := by
  unfold Obligations.ConstantIndexBroadcasts
  intro src idx k h
  obtain rfl := eq_constantIndex_of_nib h
  exact ⟨rfl, fun i hi => nib_nperm_constantIndex src k hi, nperm_constantIndex src k⟩

/-! ### Locality (R76) -/

theorem nib_nperm_congr (src : Word) {idx idx' : Word} {i : Nat} (hi : i < 16) (h : nib idx' i = nib idx i) :
    nib (nperm src idx') i = nib (nperm src idx) i := by
  rw [nib_nperm src idx' hi, nib_nperm src idx hi, h]

/-- Flipping a bit outside a field leaves the field as it is. -/
theorem nib_xor_twoPow (v : Word) {i b : Nat} (hb : ¬ (4 * i ≤ b ∧ b ≤ 4 * i + 3)) :
    nib (v ^^^ BitVec.twoPow 64 b) i = nib v i := by
  apply BitVec.eq_of_getLsbD_eq
  intro j hj
  have houtside : b ≠ 4 * i + j := by omega
  rw [nib_getLsbD, nib_getLsbD, BitVec.getLsbD_xor, BitVec.getLsbD_twoPow, decide_eq_false houtside, Bool.and_false,
    Bool.xor_false]

/-- Settles O26: a field of the result reads one index field, which no bit outside it can change. -/
theorem indexLocality : Obligations.IndexLocality := by
  unfold Obligations.IndexLocality
  exact fun src idx i hi => ⟨fun idx' h => nib_nperm_congr src hi h,
    fun b _ hb => nib_nperm_congr src hi (nib_xor_twoPow idx hb)⟩

/-! ### Composition (R78) -/

theorem nib_nperm_nperm (src a b : Word) {i : Nat} (hi : i < 16) :
    nib (nperm (nperm src a) b) i = nib src (nib a (nib b i).toNat).toNat := by
  rw [nib_nperm _ b hi, nib_nperm src a (nib b i).isLt]

theorem nperm_nperm (src a b : Word) : nperm (nperm src a) b = nperm src (nperm a b) := by
  apply eq_nperm_of_nib
  intro i hi
  rw [nib_nperm_nperm src a b hi, nib_nperm a b hi]

/-- Settles O28: both sides look up the field that `a` holds where `b` points. -/
theorem permutationsCompose : Obligations.PermutationsCompose := by
  unfold Obligations.PermutationsCompose
  exact fun src a b => ⟨nperm_nperm src a b, fun i hi => nib_nperm_nperm src a b hi⟩

/-! ### Inverses (R77) -/

/-- The first position that holds field `j`'s value is the only one, `j` itself. -/
theorem nib_invIndex {p : Word} (hp : DistinctFields p) {j : Nat} (hj : j < 16) :
    (nib (invIndex p) (nib p j).toNat).toNat = j := by
  have hlt : (List.range 16).findIdx (fun i => nib p i = nib p j) < (List.range 16).length :=
    List.findIdx_lt_length.mpr ⟨j, List.mem_range.mpr hj, by simp⟩
  have hfound := List.findIdx_getElem (w := hlt)
  rw [List.getElem_range, decide_eq_true_eq] at hfound
  rw [List.length_range] at hlt
  have hfirst := hp _ hlt j hj hfound
  rw [invIndex, nib_ofNibs _ (nib p j).isLt, BitVec.ofNat_toNat, BitVec.setWidth_eq, hfirst, BitVec.toNat_ofNat,
    Nat.mod_eq_of_lt hj]

/-- Sixteen distinct fields take each of the sixteen values. -/
theorem DistinctFields.exists_nib_eq {p : Word} (hp : DistinctFields p) {i : Nat} (hi : i < 16) :
    ∃ j < 16, (nib p j).toNat = i := by
  have hinj : Function.Injective fun j : Fin 16 => (nib p j).toFin := fun j k h =>
    Fin.ext (hp j j.isLt k k.isLt (BitVec.eq_of_toFin_eq h))
  obtain ⟨j, hj⟩ := Finite.surjective_of_injective hinj ⟨i, hi⟩
  exact ⟨j, j.isLt, congrArg Fin.val hj⟩

theorem nperm_invIndex_self {p : Word} (hp : DistinctFields p) : nperm (invIndex p) p = identityIndex := by
  apply eq_identityIndex_of_nib
  intro i hi
  rw [nib_nperm _ p hi, nib_invIndex hp hi]

theorem nperm_self_invIndex {p : Word} (hp : DistinctFields p) : nperm p (invIndex p) = identityIndex := by
  apply eq_identityIndex_of_nib
  intro i hi
  obtain ⟨j, hj, rfl⟩ := DistinctFields.exists_nib_eq hp hi
  rw [nib_nperm p _ hi, nib_invIndex hp hj]

/-- Settles O27: either round trip folds into one permutation, whose index array is the identity. -/
theorem inverseRoundTrip : Obligations.InverseRoundTrip := by
  unfold Obligations.InverseRoundTrip
  refine ⟨fun p hp => ⟨fun j hj => nib_invIndex hp hj, fun src => ⟨?_, ?_⟩⟩, by decide⟩
  · rw [nperm_nperm, nperm_self_invIndex hp, nperm_identityIndex]
  · rw [nperm_nperm, nperm_invIndex_self hp, nperm_identityIndex]

end Sys2Proof.Machine
end

section
/-!
The operations and the reserved op codes (R70 to R73): what each answers, and that several deliver steps answer the
oldest requests in their order.
-/

namespace Sys2Proof.Machine

/-! ### EXEC by op code (R70) -/

theorem answer_of_op_zero (b : Config.Build) {q : Request} (h : q.op = 0x00) :
    answer b q = { dst := simd b q.src q.idx, err := false } := by
  rw [answer, decode_of_op_zero h]

theorem answer_of_op_one (b : Config.Build) {q : Request} (h : q.op = 0x01) :
    answer b q = { dst := ref q.src q.idx, err := false } := by
  rw [answer, decode_of_op_one h]

theorem answer_of_two_le_op (b : Config.Build) {q : Request} (h : 2 ≤ q.op.toNat) :
    answer b q = { dst := 0, err := true } := by
  rw [answer, decode_of_two_le_op h]

/-- Settles O32: one equation of `EXEC` for each range of op codes, and the two paths' agreement. -/
theorem execFunction : Obligations.ExecFunction := by
  unfold Obligations.ExecFunction
  exact fun b idx src => ⟨answer_of_op_zero b rfl, answer_of_op_one b rfl, simd_eq_nperm b src idx,
    ref_eq_nperm src idx, fun op hop => answer_of_two_le_op b hop⟩

/-! ### PERM and PERMREF (R71, R72) -/

/-- `PERMREF` responds with the contract's result (R69, R72). -/
theorem exec_permref_eq (src idx : Word) (s : State) :
    exec (.permref src idx) s = .next (s.respond { dst := nperm src idx, err := false }) := by
  rw [← ref_eq_nperm src idx]
  rfl

/-- Settles O29: `PERM` delivers the contract's result; the corner cases are constant sources and constant index
arrays, and on the way every lane is a nibble and every pair of them fits a byte. -/
theorem permCompletes : Obligations.PermCompletes := by
  unfold Obligations.PermCompletes
  have hzero : (0 : Word) = constantIndex 0 := by decide
  have hones : (0xFFFFFFFFFFFFFFFF : Word) = constantIndex 15 := by decide
  refine ⟨fun src idx s => ⟨exec_perm_eq src idx s, simd_eq_nperm s.build src idx, rfl⟩, fun idx => ⟨?_, ?_⟩,
    fun src i hi => ⟨?_, ?_⟩, fun src idx i hi => nib_nperm src idx hi,
    fun src idx => ⟨fun i hi => ?_, fun k hk => ?_⟩, nperm_scenario⟩
  · rw [hzero, nperm_constant_source]
  · rw [hones, nperm_constant_source]
  · exact hzero ▸ nib_nperm_constantIndex src 0 hi
  · exact hones ▸ nib_nperm_constantIndex src 15 hi
  · exact Nat.lt_of_le_of_lt (widen_nibbleLanes idx i hi) (by decide)
  · exact lane16_madd_le (permuted_nibbleLanes src idx) hk

/-- Settles O30: both operations respond with the contract's result. -/
theorem permrefCompletes : Obligations.PermrefCompletes := by
  unfold Obligations.PermrefCompletes
  refine ⟨fun src idx s => ⟨exec_permref_eq src idx s, ref_eq_nperm src idx, ?_, rfl⟩,
    (ref_eq_nperm _ _).trans nperm_scenario⟩
  rw [exec_permref_eq, exec_perm_eq]

/-! ### Reserved op codes (R73) -/

/-- One deliver step answers the head of the queue. -/
theorem State.exists_runs_deliver {s : State} {q : Request} {rest : List Request} (hrst : s.rst = false)
    (hready : s.ready = true) (hq : s.inflight = q :: rest) :
    ∃ u, s.Runs [.deliver] u ∧ u.rst = false ∧ u.ready = true ∧ u.build = s.build ∧ u.inflight = rest ∧
      u.delivered = s.delivered ++ [answer s.build q] := by
  have hbegun : ({ s with schedule := [.deliver] } : State).beginStep.inflight = q :: rest := by simp [hrst, hq]
  have hmove := (deliver_of_enabled (by simpa using hrst) (by simpa using hready) hbegun).trans (runRequest_eq q _)
  exact ⟨_, State.runs_cons.mpr ⟨_, hmove, State.runs_nil.mpr rfl⟩, hrst, hready, rfl,
    congrArg List.tail hbegun, rfl⟩

/-- As many deliver steps in a row as there are requests in `qs`, the oldest in flight, answer these in their order. -/
theorem State.exists_runs_replicate_deliver {s : State} {qs rest : List Request} (hrst : s.rst = false)
    (hready : s.ready = true) (hq : s.inflight = qs ++ rest) :
    ∃ t, s.Runs (List.replicate qs.length .deliver) t ∧ t.inflight = rest ∧
      t.delivered = s.delivered ++ answers s.build qs := by
  induction qs generalizing s with
  | nil => exact ⟨_, State.runs_nil.mpr rfl, hq, by simp [answers]⟩
  | cons q qs ih =>
    obtain ⟨u, hfirst, hrstu, hreadyu, hbuild, hinflight, hdelivered⟩ := State.exists_runs_deliver hrst hready hq
    obtain ⟨t, hrest, hinflight', hdelivered'⟩ := ih hrstu hreadyu hinflight
    refine ⟨t, State.runs_append hfirst hrest, hinflight', ?_⟩
    rw [hdelivered', hdelivered, hbuild, answers_cons, List.append_assoc, List.singleton_append]

/-- Settles O31: a deliver step answers the head, and three answer the three oldest, each with its own response. -/
theorem reservedOpAnswered : Obligations.ReservedOpAnswered := by
  unfold Obligations.ReservedOpAnswered
  intro s q hop hrst hready
  have hanswer := answer_of_two_le_op s.build hop
  refine ⟨fun rest hq hmove => ?_, fun q₁ q₂ rest hq => ?_⟩
  · obtain ⟨henabled, -⟩ := deliverStep s hmove
    rw [henabled q rest hrst hready hq, hanswer]
  · obtain ⟨t, hrun, hinflight, hdelivered⟩ :=
      State.exists_runs_replicate_deliver (qs := [q₁, q, q₂]) hrst hready hq
    refine ⟨t, hrun, hinflight, ?_⟩
    rw [hdelivered, ← hanswer]
    rfl

end Sys2Proof.Machine
end

section
/-!
Every step answers a next state (R79), and accept and deliver steps that are both enabled commute (R83): the accept
step works at the end of the queue, the deliver step at its head.
-/

namespace Sys2Proof.Machine

/-- Settles O41: every step is one transition, and every transition answers a next state. -/
theorem everyStepAnswersNext : Obligations.EveryStepAnswersNext := by
  unfold Obligations.EveryStepAnswersNext
  intro s
  rw [step_eq]
  exact takeMove_total s.nextMove s.beginStep

/-! ### The two orders (R83) -/

/-- A step whose one settled transition is `m` is a run of `m` alone. -/
theorem State.runs_of_step {s t : State} {m : Move} (h : step { s with schedule := [m] } = .next t) :
    s.Runs [m] t := by
  have hcore : Sys2Proof.core.step ({ s with schedule := [m] } : State) = .next t := h
  simp only [State.Runs, List.length_singleton, Host.Core.run, hcore]

/-- An enabled accept step as a run (R25). -/
theorem State.runs_accept {s : State} {q : Request} {qs : List Request} (hrst : s.rst = false)
    (hroom : s.inflight.length < s.build.depth) (hq : s.offered = q :: qs) :
    s.Runs [.accept] { s with
      schedule := [], tick := s.tick + 1, inflight := s.inflight ++ [q], offered := qs } := by
  obtain ⟨haccept, -⟩ := acceptStep { s with schedule := [.accept] }
  obtain ⟨henabled, -⟩ := haccept rfl
  exact State.runs_of_step (henabled q qs hrst hroom hq)

/-- An enabled deliver step as a run (R26). -/
theorem State.runs_deliver {s : State} {q : Request} {rest : List Request} (hrst : s.rst = false)
    (hready : s.ready = true) (hq : s.inflight = q :: rest) :
    s.Runs [.deliver] { s with
      schedule := [], tick := s.tick + 1, inflight := rest, delivered := s.delivered ++ [answer s.build q] } := by
  obtain ⟨henabled, -⟩ := deliverStep { s with schedule := [.deliver] } rfl
  exact State.runs_of_step (henabled q rest hrst hready hq)

/-- Settles O40: neither step disables the other. The accept step leaves the head of the queue where it is, and the
deliver step only makes room. -/
theorem acceptAndDeliverCommute : Obligations.AcceptAndDeliverCommute := by
  unfold Obligations.AcceptAndDeliverCommute
  intro s q h qs rest hrst hready hinflight hroom hoffered
  have hhead : s.inflight ++ [q] = h :: (rest ++ [q]) := by rw [hinflight, List.cons_append]
  have hroom' : rest.length < s.build.depth := by
    rw [hinflight, List.length_cons] at hroom
    omega
  have hacceptFirst := State.runs_append (State.runs_accept hrst hroom hoffered)
    (State.runs_deliver hrst hready hhead)
  have hdeliverFirst := State.runs_append (State.runs_deliver hrst hready hinflight)
    (State.runs_accept hrst hroom' hoffered)
  exact ⟨_, hacceptFirst, hdeliverFirst, rfl, rfl, rfl⟩

end Sys2Proof.Machine
end

section
/-!
The reset input (R93, R95) and the host's own transitions (R98), each as one step.
-/

namespace Sys2Proof.Machine

/-- Settles O38: with reset released a step is its transition, and these two touch one field each. -/
theorem hostTransitions : Obligations.HostTransitions := by
  unfold Obligations.HostTransitions
  refine fun s hrst => ⟨fun q hmove => ?_, fun level hmove => ?_⟩
  · rw [step_eq, hmove, State.beginStep_of_released hrst]
    rfl
  · rw [step_eq, hmove, State.beginStep_of_released hrst]
    rfl

/-- While reset is asserted and until it is released, requests are offered and nothing else happens (R93). -/
theorem takeMove_in_reset {m : Move} {s t : State} (hrst : s.rst = true) (hempty : s.inflight = [])
    (hrelease : m ≠ .reset false) (h : takeMove m s = .next t) :
    t.rst = true ∧ t.inflight = [] ∧ t.delivered = s.delivered ∧ s.offered <+: t.offered := by
  obtain ⟨q, -, rfl⟩ | ⟨level, -, rfl⟩ | ⟨level, rfl, rfl⟩ | ⟨-, rfl⟩ | ⟨-, hon, -⟩ | ⟨-, -, rfl⟩ | ⟨-, rfl⟩ :=
    takeMove_next h
  · exact ⟨hrst, hempty, rfl, List.prefix_append _ _⟩
  · exact ⟨hrst, hempty, rfl, List.prefix_rfl⟩
  · obtain rfl : level = true := by simpa using hrelease
    exact ⟨rfl, rfl, rfl, List.prefix_rfl⟩
  · rw [State.accept_of_disabled (s.acceptEnabled_eq_false_iff.mpr (.inl hrst))]
    exact ⟨hrst, hempty, rfl, List.prefix_rfl⟩
  · obtain ⟨hreleased, -, -⟩ := s.deliverEnabled_iff.mp hon
    simp [hrst] at hreleased
  · exact ⟨hrst, hempty, rfl, List.prefix_rfl⟩
  · exact ⟨hrst, hempty, rfl, List.prefix_rfl⟩

/-- Settles O37: a step that drives the reset input does that alone, and in any other step of a unit held in reset the
queue is empty before its transition. -/
theorem resetInput : Obligations.ResetInput := by
  unfold Obligations.ResetInput
  refine ⟨fun s hmove => ?_, fun s hrst hrelease => ?_, fun s hrst hmove => ?_, State.reset_rst⟩
  · rw [step_eq, hmove]
    rfl
  · obtain ⟨t, ht⟩ := takeMove_total s.nextMove s.beginStep
    have hempty : s.beginStep.inflight = [] := by simp [hrst]
    exact ⟨t, ht, takeMove_in_reset (s := s.beginStep) hrst hempty hrelease ht⟩
  · rw [step_eq, hmove, State.beginStep_eq, if_pos hrst]
    rfl

/-! ### From release to the first response (R95) -/

theorem depth_pos_of_wf {b : Config.Build} (h : b.wf = true) : 0 < b.depth := of_decide_eq_true h

/-- The release of reset as a run (R93). -/
theorem State.runs_release {s : State} (hrst : s.rst = true) :
    s.Runs [.reset false] { s with schedule := [], tick := s.tick + 1, rst := false, inflight := [] } := by
  obtain ⟨-, -, hrelease, -⟩ := resetInput
  exact State.runs_of_step (hrelease { s with schedule := [.reset false] } hrst rfl)

/-- An offer as a run (R98). -/
theorem State.runs_offer {s : State} (hrst : s.rst = false) (q : Request) :
    s.Runs [.offer q] { s with schedule := [], tick := s.tick + 1, offered := s.offered ++ [q] } := by
  obtain ⟨hoffer, -⟩ := hostTransitions { s with schedule := [.offer q] } hrst
  exact State.runs_of_step (hoffer q rfl)

/-- Settles O50: the four transitions one after the other, each enabled where the one before it ends. -/
theorem firstRequestAfterRelease : Obligations.FirstRequestAfterRelease := by
  unfold Obligations.FirstRequestAfterRelease
  intro s q hrst hready hoffered hwf
  have hroom : 0 < s.build.depth := depth_pos_of_wf hwf
  have hchannel : s.offered ++ [q] = [q] := by rw [hoffered, List.nil_append]
  have hrelease := State.runs_release hrst
  have hoffer := State.runs_append hrelease (State.runs_offer rfl q)
  have haccept := State.runs_append hoffer (State.runs_accept rfl hroom hchannel)
  have hdeliver := State.runs_append haccept (State.runs_deliver rfl hready rfl)
  exact ⟨_, hdeliver, rfl, rfl, rfl⟩

end Sys2Proof.Machine
end

section
/-!
What a run cannot change: a full queue that delivers nothing accepts nothing (R97), and a host that is not ready is
delivered nothing (R98).
-/

namespace Sys2Proof.Machine

/-- What settling transitions and beginning a step keep, and every transition of a run keeps, holds at its end. -/
theorem State.Runs.keeps {P : State → Prop} {s t : State} {ms : List Move} (h : s.Runs ms t)
    (hsettle : ∀ u ns, P u → P { u with schedule := ns }) (hbegin : ∀ u, P u → P u.beginStep)
    (hmove : ∀ m ∈ ms, ∀ u v, P u → takeMove m u = .next v → P v) (hs : P s) : P t := by
  induction ms generalizing s with
  | nil =>
    obtain rfl := State.runs_nil.mp h
    exact hsettle s [] hs
  | cons m ms ih =>
    obtain ⟨hfirst, hrest⟩ := List.forall_mem_cons.mp hmove
    obtain ⟨u, hu, hrun⟩ := State.runs_cons.mp h
    exact ih hrun hrest (hfirst _ u (hbegin _ (hsettle s _ hs)) hu)

/-! ### A full queue (R97) -/

/-- Since `s` reset was not asserted and nothing was accepted or delivered. -/
structure QueueHeld (s t : State) : Prop where
  rst : t.rst = false
  build : t.build = s.build
  inflight : t.inflight = s.inflight
  delivered : t.delivered = s.delivered

/-- Only an accept or a deliver step changes the queue of a released unit, and a full queue disables the first. -/
theorem QueueHeld.takeMove {s u v : State} {m : Move} (hfull : s.build.depth ≤ s.inflight.length)
    (hdeliver : m ≠ .deliver) (hreset : m ≠ .reset true) (hu : QueueHeld s u) (h : takeMove m u = .next v) :
    QueueHeld s v := by
  obtain ⟨hrst, hbuild, hinflight, hdelivered⟩ := hu
  obtain ⟨q, -, rfl⟩ | ⟨level, -, rfl⟩ | ⟨level, rfl, rfl⟩ | ⟨-, rfl⟩ | ⟨rfl, -⟩ | ⟨-, -, rfl⟩ | ⟨-, rfl⟩ :=
    takeMove_next h
  · exact ⟨hrst, hbuild, hinflight, hdelivered⟩
  · exact ⟨hrst, hbuild, hinflight, hdelivered⟩
  · obtain rfl : level = false := by simpa using hreset
    exact ⟨rfl, hbuild, hinflight, hdelivered⟩
  · have hoff := u.acceptEnabled_eq_false_iff.mpr (.inr (.inl (by rwa [hbuild, hinflight])))
    rw [State.accept_of_disabled hoff]
    exact ⟨hrst, hbuild, hinflight, hdelivered⟩
  · exact absurd rfl hdeliver
  · exact ⟨hrst, hbuild, hinflight, hdelivered⟩
  · exact ⟨hrst, hbuild, hinflight, hdelivered⟩

theorem QueueHeld.beginStep {s u : State} (h : QueueHeld s u) : QueueHeld s u.beginStep :=
  ⟨h.rst, h.build, by simp [h.rst, h.inflight], h.delivered⟩

theorem State.Runs.queueHeld {s t : State} {ms : List Move} (h : s.Runs ms t) (hrst : s.rst = false)
    (hfull : s.build.depth ≤ s.inflight.length) (hdeliver : Move.deliver ∉ ms) (hreset : Move.reset true ∉ ms) :
    QueueHeld s t :=
  h.keeps (P := QueueHeld s) (fun _ _ hu => ⟨hu.rst, hu.build, hu.inflight, hu.delivered⟩) (fun _ => QueueHeld.beginStep)
    (fun _ hm _ _ => QueueHeld.takeMove hfull (ne_of_mem_of_not_mem hm hdeliver) (ne_of_mem_of_not_mem hm hreset))
    ⟨hrst, rfl, rfl, rfl⟩

/-- Settles O48: what a run accepts is answered or in flight at its end, so where the queue and the responses are as
they were it accepted nothing. -/
theorem holdWhenFull : Obligations.HoldWhenFull := by
  unfold Obligations.HoldWhenFull
  intro s ms hrst hfull hdeliver hreset
  obtain ⟨t, hrun⟩ := State.runs_total ms s
  have hheld := hrun.queueHeld hrst hfull hdeliver hreset
  obtain ⟨accepted, hacc⟩ := hrun.acceptedInOrder hrst hreset
  have hnone : accepted = [] := by simpa [hheld.inflight, hheld.delivered, answers] using hacc.owed
  have hwaiting := hacc.waiting
  rw [hnone, List.nil_append] at hwaiting
  exact ⟨t, hrun, hheld.inflight, hwaiting.symm, hheld.delivered⟩

/-! ### A host that is not ready (R98) -/

/-- Without readiness no transition delivers, and only a reset takes a request from the queue. -/
theorem takeMove_of_not_ready {m : Move} {s t : State} (hready : s.ready = false) (hstart : m ≠ .ready true)
    (h : takeMove m s = .next t) :
    t.ready = false ∧ t.delivered = s.delivered ∧
      (s.rst = false → m ≠ .reset true → t.rst = false ∧ s.inflight <+: t.inflight) := by
  obtain ⟨q, -, rfl⟩ | ⟨level, rfl, rfl⟩ | ⟨level, rfl, rfl⟩ | ⟨-, rfl⟩ | ⟨-, hon, -⟩ | ⟨-, -, rfl⟩ | ⟨-, rfl⟩ :=
    takeMove_next h
  · exact ⟨hready, rfl, fun hrst _ => ⟨hrst, List.prefix_rfl⟩⟩
  · exact ⟨by simpa using hstart, rfl, fun hrst _ => ⟨hrst, List.prefix_rfl⟩⟩
  · refine ⟨hready, rfl, fun _ hreset => ?_⟩
    obtain rfl : level = false := by simpa using hreset
    exact ⟨rfl, List.prefix_rfl⟩
  · obtain ⟨q, qs, -, -, -, hacc⟩ | ⟨-, hacc⟩ := s.accept_cases
    · rw [hacc]
      exact ⟨hready, rfl, fun hrst _ => ⟨hrst, List.prefix_append _ _⟩⟩
    · rw [hacc]
      exact ⟨hready, rfl, fun hrst _ => ⟨hrst, List.prefix_rfl⟩⟩
  · obtain ⟨-, hyes, -⟩ := s.deliverEnabled_iff.mp hon
    simp [hready] at hyes
  · exact ⟨hready, rfl, fun hrst _ => ⟨hrst, List.prefix_rfl⟩⟩
  · exact ⟨hready, rfl, fun hrst _ => ⟨hrst, List.prefix_rfl⟩⟩

/-- Since `s` the host took no response. -/
structure NothingTaken (s t : State) : Prop where
  ready : t.ready = false
  delivered : t.delivered = s.delivered

/-- Since `s`, while the host was not ready, reset was not asserted and nothing in flight was lost. -/
structure QueueKept (s t : State) : Prop where
  rst : t.rst = false
  ready : t.ready = false
  inflight : s.inflight <+: t.inflight

theorem State.Runs.nothingTaken {s t : State} {ms : List Move} (h : s.Runs ms t) (hready : s.ready = false)
    (hstart : Move.ready true ∉ ms) : NothingTaken s t := by
  refine h.keeps (P := NothingTaken s) (fun _ _ hu => ⟨hu.ready, hu.delivered⟩) (fun _ hu => ⟨hu.ready, hu.delivered⟩)
    (fun m hm u v hu hv => ?_) ⟨hready, rfl⟩
  obtain ⟨hreadyv, hdelivered, -⟩ := takeMove_of_not_ready hu.ready (ne_of_mem_of_not_mem hm hstart) hv
  exact ⟨hreadyv, hdelivered.trans hu.delivered⟩

theorem State.Runs.queueKept {s t : State} {ms : List Move} (h : s.Runs ms t) (hrst : s.rst = false)
    (hready : s.ready = false) (hstart : Move.ready true ∉ ms) (hreset : Move.reset true ∉ ms) : QueueKept s t := by
  refine h.keeps (P := QueueKept s) (fun _ _ hu => ⟨hu.rst, hu.ready, hu.inflight⟩)
    (fun u hu => ⟨hu.rst, hu.ready, by simpa [hu.rst] using hu.inflight⟩) (fun m hm u v hu hv => ?_)
    ⟨hrst, hready, List.prefix_rfl⟩
  obtain ⟨hreadyv, -, hkeep⟩ := takeMove_of_not_ready hu.ready (ne_of_mem_of_not_mem hm hstart) hv
  obtain ⟨hrstv, hinflight⟩ := hkeep hu.rst (ne_of_mem_of_not_mem hm hreset)
  exact ⟨hrstv, hreadyv, hu.inflight.trans hinflight⟩

/-- Settles O49, by what each transition keeps while the host is not ready. -/
theorem holdWhileHostNotReady : Obligations.HoldWhileHostNotReady := by
  unfold Obligations.HoldWhileHostNotReady
  intro s ms hready hstart
  obtain ⟨t, hrun⟩ := State.runs_total ms s
  exact ⟨t, hrun, (hrun.nothingTaken hready hstart).delivered,
    fun hrst hreset => (hrun.queueKept hrst hready hstart hreset).inflight⟩

end Sys2Proof.Machine
end

section
/-!
What a state promises: the responses delivered, followed by those owed to the requests in flight and waiting. Without
a reset a run adds to it the answers to its offers and nothing else, so what is observed at the end of a drained run
is fixed by its offers (R99, R100).
-/

namespace Sys2Proof.Machine

/-- The responses owed to the requests in flight and to those waiting, in order. -/
def State.owed (s : State) : List Response := answers s.build (s.inflight ++ s.offered)

/-- The responses delivered, followed by all those owed. -/
def State.promised (s : State) : List Response := s.delivered ++ s.owed

@[simp] theorem State.Drained.promised {s : State} (h : s.Drained) : s.promised = s.delivered := by
  obtain ⟨hoffered, hinflight⟩ := h
  simp [State.promised, State.owed, hoffered, hinflight, answers]

theorem AcceptedInOrder.promised {s t : State} {offers accepted : List Request}
    (h : AcceptedInOrder s t offers accepted) : t.promised = s.promised ++ answers s.build offers := by
  calc t.promised
      = (t.delivered ++ answers s.build t.inflight) ++ answers s.build t.offered := by
        simp [State.promised, State.owed, h.build]
    _ = s.delivered ++ answers s.build s.inflight ++ answers s.build (accepted ++ t.offered) := by
        rw [h.owed]; simp
    _ = s.promised ++ answers s.build offers := by
        rw [← h.waiting]; simp [State.promised, State.owed]

theorem State.Runs.promised {s t : State} {ms : List Move} (h : s.Runs ms t) (hrst : s.rst = false)
    (hreset : Move.reset true ∉ ms) : t.promised = s.promised ++ answers s.build (offersOf ms) := by
  obtain ⟨_, hacc⟩ := h.acceptedInOrder hrst hreset
  exact hacc.promised

theorem State.promised_append_answers (s : State) (offers : List Request) :
    s.promised ++ answers s.build offers = s.delivered ++ answers s.build (s.inflight ++ s.offered ++ offers) := by
  simp [State.promised, State.owed]

/-- A drained end has delivered all that the start promised and the answers to the offers since. -/
theorem State.Runs.delivered_of_drained {s t : State} {ms : List Move} (h : s.Runs ms t) (hrst : s.rst = false)
    (hreset : Move.reset true ∉ ms) (hdrained : t.Drained) :
    t.delivered = s.delivered ++ answers s.build (s.inflight ++ s.offered ++ offersOf ms) := by
  rw [← State.promised_append_answers, ← h.promised hrst hreset, hdrained.promised]

/-- Settles O47: both runs end with what the start promised and the answers to the same offers. -/
theorem finalObservationFixed : Obligations.FinalObservationFixed := by
  unfold Obligations.FinalObservationFixed
  intro s t t' ms ms' hrst hreset hreset' hoffers hrun hrun' hdrained hdrained'
  have ht := hrun.delivered_of_drained hrst hreset hdrained
  have ht' := hrun'.delivered_of_drained hrst hreset' hdrained'
  exact ⟨ht, by rw [ht, ht', hoffers]⟩

end Sys2Proof.Machine
end

section
/-!
Progress (R96): along an endless schedule without a reset the number of requests accepted and the number of responses
delivered only grow, and the fairness premises make each of them climb to what was promised.
-/

namespace Sys2Proof.Machine

/-! ### The states along an endless schedule -/

theorem firstMoves_succ (σ : Nat → Move) (n : Nat) : firstMoves σ (n + 1) = firstMoves σ n ++ [σ n] := by
  simp [firstMoves, List.range_succ]

theorem not_mem_firstMoves {σ : Nat → Move} {m : Move} (h : ∀ n, σ n ≠ m) (n : Nat) : m ∉ firstMoves σ n := by
  simp [firstMoves, h]

/-- `x n` is the state after the first `n` transitions of `σ`, among which no reset is asserted. -/
structure ReleasedTrajectory (s : State) (σ : Nat → Move) (x : Nat → State) : Prop where
  released : s.rst = false
  noReset : ∀ n, σ n ≠ .reset true
  runs : ∀ n, s.Runs (firstMoves σ n) (x n)

theorem exists_releasedTrajectory {s : State} {σ : Nat → Move} (hrst : s.rst = false)
    (hreset : ∀ n, σ n ≠ .reset true) : ∃ x, ReleasedTrajectory s σ x := by
  choose x hx using fun n => State.runs_total (firstMoves σ n) s
  exact ⟨x, hrst, hreset, hx⟩

/-- The number of requests accepted: those answered and those in flight. -/
def State.acceptedCount (s : State) : Nat := s.delivered.length + s.inflight.length

theorem State.promised_length (s : State) : s.promised.length = s.acceptedCount + s.offered.length := by
  simp [State.promised, State.owed, State.acceptedCount, answers, Nat.add_assoc]

theorem AcceptedInOrder.acceptedCount {s t : State} {offers accepted : List Request}
    (h : AcceptedInOrder s t offers accepted) : t.acceptedCount = s.acceptedCount + accepted.length := by
  simpa [State.acceptedCount, answers, Nat.add_assoc] using congrArg List.length h.owed

/-- No run takes back a response (R93). -/
theorem State.Runs.delivered_prefix {s t : State} {ms : List Move} (h : s.Runs ms t) :
    s.delivered <+: t.delivered := by
  refine h.keeps (P := fun u => s.delivered <+: u.delivered) (fun _ _ hu => hu) (fun _ hu => hu)
    (fun m _ u v hu hv => ?_) List.prefix_rfl
  obtain ⟨-, rs, hrs, -⟩ := takeMove_build_delivered hv
  exact hu.trans ⟨rs, hrs.symm⟩

namespace ReleasedTrajectory

variable {s : State} {σ : Nat → Move} {x : Nat → State}

theorem rst (h : ReleasedTrajectory s σ x) (n : Nat) : (x n).rst = false := by
  obtain ⟨_, hacc⟩ := (h.runs n).acceptedInOrder h.released (not_mem_firstMoves h.noReset n)
  exact hacc.rst.trans h.released

theorem build (h : ReleasedTrajectory s σ x) (n : Nat) : (x n).build = s.build := by
  obtain ⟨_, hacc⟩ := (h.runs n).acceptedInOrder h.released (not_mem_firstMoves h.noReset n)
  exact hacc.build

theorem next (h : ReleasedTrajectory s σ x) (n : Nat) : (x n).Runs [σ n] (x (n + 1)) := by
  obtain ⟨u, hu⟩ := State.runs_total [σ n] (x n)
  have hrun := State.runs_append (h.runs n) hu
  rw [← firstMoves_succ] at hrun
  rwa [State.runs_unique (h.runs (n + 1)) hrun]

theorem next_acceptedInOrder (h : ReleasedTrajectory s σ x) (n : Nat) :
    ∃ accepted, AcceptedInOrder (x n) (x (n + 1)) (offersOf [σ n]) accepted :=
  (h.next n).acceptedInOrder (h.rst n) (by simpa using (h.noReset n).symm)

theorem acceptedCount_mono (h : ReleasedTrajectory s σ x) : Monotone fun n => (x n).acceptedCount := by
  refine monotone_nat_of_le_succ fun n => ?_
  obtain ⟨_, hacc⟩ := h.next_acceptedInOrder n
  exact hacc.acceptedCount ▸ Nat.le_add_right _ _

theorem delivered_mono (h : ReleasedTrajectory s σ x) : Monotone fun n => (x n).delivered.length :=
  monotone_nat_of_le_succ fun n => (h.next n).delivered_prefix.length_le

theorem promised_prefix (h : ReleasedTrajectory s σ x) {n m : Nat} (hnm : n ≤ m) :
    (x n).promised <+: (x m).promised := by
  induction m, hnm using Nat.le_induction with
  | base => exact List.prefix_rfl
  | succ m _ ih =>
    obtain ⟨_, hacc⟩ := h.next_acceptedInOrder m
    exact ih.trans ⟨_, hacc.promised.symm⟩

/-- A deliver step taken while it is enabled delivers one response (R26). -/
theorem deliver_adds (h : ReleasedTrajectory s σ x) {n : Nat} (hmove : σ n = .deliver) (hready : (x n).ready = true)
    (hqueue : (x n).inflight ≠ []) : (x (n + 1)).delivered.length = (x n).delivered.length + 1 := by
  obtain ⟨q, rest, hq⟩ := List.exists_cons_of_ne_nil hqueue
  have hnext := h.next n
  rw [hmove] at hnext
  rw [State.runs_unique hnext (State.runs_deliver (h.rst n) hready hq)]
  simp

/-- An accept step taken while it is enabled accepts one request (R25). -/
theorem accept_adds (h : ReleasedTrajectory s σ x) {n : Nat} (hmove : σ n = .accept)
    (henabled : (x n).acceptEnabled = true) : (x (n + 1)).acceptedCount = (x n).acceptedCount + 1 := by
  obtain ⟨hrst, hwaiting, hroom⟩ := (x n).acceptEnabled_iff.mp henabled
  obtain ⟨q, rest, hq⟩ := List.exists_cons_of_ne_nil hwaiting
  have hnext := h.next n
  rw [hmove] at hnext
  rw [State.runs_unique hnext (State.runs_accept hrst hroom hq)]
  simp [State.acceptedCount, Nat.add_assoc]

end ReleasedTrajectory

/-! ### Climbing -/

/-- A count that grows again and again while it is below `L` reaches `L`. -/
theorem exists_le_of_climbs {f : Nat → Nat} {N L : Nat} (h : ∀ n ≥ N, f n < L → ∃ m ≥ n, f n < f m) :
    ∃ m ≥ N, L ≤ f m := by
  induction L with
  | zero => exact ⟨N, le_rfl, Nat.zero_le _⟩
  | succ L ih =>
    obtain ⟨n, hn, hL⟩ := ih fun n hn hlt => h n hn (Nat.lt_succ_of_lt hlt)
    by_cases hlt : f n < L + 1
    · obtain ⟨m, hm, hgrow⟩ := h n hn hlt
      exact ⟨m, hn.trans hm, by omega⟩
    · exact ⟨n, hn, not_lt.mp hlt⟩

namespace ReleasedTrajectory

variable {s : State} {σ : Nat → Move} {x : Nat → State}

/-- A host that leaves no response waiting for ever at last takes those of all requests accepted so far. -/
theorem exists_delivered_ge_accepted (h : ReleasedTrajectory s σ x) (htakes : HostTakes s σ) (N : Nat) :
    ∃ n ≥ N, (x N).acceptedCount ≤ (x n).delivered.length := by
  refine exists_le_of_climbs fun n hn hlt => ?_
  obtain ⟨m, hm, t, hrun, htaken⟩ := htakes n
  obtain rfl := State.runs_unique (h.runs m) hrun
  have haccepted : (x N).acceptedCount ≤ (x m).acceptedCount := h.acceptedCount_mono (hn.trans hm)
  by_cases hqueue : (x m).inflight = []
  · have hanswered : (x m).acceptedCount = (x m).delivered.length := by simp [State.acceptedCount, hqueue]
    exact ⟨m, hm, by omega⟩
  · obtain ⟨hmove, hready⟩ := htaken.resolve_left hqueue
    have hadds := h.deliver_adds hmove hready hqueue
    have hgrown : (x n).delivered.length ≤ (x m).delivered.length := h.delivered_mono hm
    exact ⟨m + 1, by omega, by omega⟩

/-- Once every request accepted so far is answered the accept step is enabled while one waits, and weak fairness has it
taken. -/
theorem accepted_climbs (h : ReleasedTrajectory s σ x) (hdepth : 0 < s.build.depth) (htakes : HostTakes s σ)
    (hfair : WeaklyFair s σ State.acceptEnabled .accept) {N n : Nat} (hn : N ≤ n)
    (hlt : (x n).acceptedCount < (x N).promised.length) : ∃ m ≥ n, (x n).acceptedCount < (x m).acceptedCount := by
  obtain ⟨m, hm, hanswered⟩ := h.exists_delivered_ge_accepted htakes n
  obtain ⟨k, hk, hfairk⟩ := hfair m
  have hansweredk : (x n).acceptedCount ≤ (x k).delivered.length := hanswered.trans (h.delivered_mono hk)
  by_cases hgrown : (x n).acceptedCount < (x k).acceptedCount
  · exact ⟨k, hm.trans hk, hgrown⟩
  · have hqueue : (x k).inflight.length = 0 := by
      have hcount : (x k).acceptedCount = (x k).delivered.length + (x k).inflight.length := rfl
      omega
    have hwaiting : (x k).offered ≠ [] := by
      have hpromised := (h.promised_prefix (hn.trans (hm.trans hk))).length_le
      rw [(x k).promised_length] at hpromised
      exact List.ne_nil_of_length_pos (by omega)
    have henabled : (x k).acceptEnabled = true :=
      (x k).acceptEnabled_iff.mpr ⟨h.rst k, hwaiting, by rwa [hqueue, h.build]⟩
    have hmove : σ k = .accept := by
      refine hfairk.resolve_right fun ⟨t, hrun, hoff⟩ => ?_
      obtain rfl := State.runs_unique (h.runs k) hrun
      simp [henabled] at hoff
    have hadds := h.accept_adds hmove henabled
    have hmono : (x n).acceptedCount ≤ (x k).acceptedCount := h.acceptedCount_mono (hm.trans hk)
    exact ⟨k + 1, by omega, by omega⟩

/-- All that is promised at any point is at last delivered. -/
theorem exists_promised_prefix_delivered (h : ReleasedTrajectory s σ x) (hdepth : 0 < s.build.depth)
    (htakes : HostTakes s σ) (hfair : WeaklyFair s σ State.acceptEnabled .accept) (N : Nat) :
    ∃ n ≥ N, (x N).promised <+: (x n).delivered := by
  obtain ⟨m, hm, haccepted⟩ := exists_le_of_climbs (f := fun n => (x n).acceptedCount) fun n hn hlt =>
    h.accepted_climbs hdepth htakes hfair hn hlt
  obtain ⟨n, hn, hanswered⟩ := h.exists_delivered_ge_accepted htakes m
  exact ⟨n, hm.trans hn, List.prefix_of_prefix_length_le (h.promised_prefix (hm.trans hn))
    (List.prefix_append _ _) (haccepted.trans hanswered)⟩

end ReleasedTrajectory

/-- Settles O53: what is promised after `N` transitions is what the statement lists, and it is at last delivered. -/
theorem progressAtTheHostsPace : Obligations.ProgressAtTheHostsPace := by
  unfold Obligations.ProgressAtTheHostsPace
  intro s σ ⟨hwf, _, _⟩ hrst hreset htakes hfair N
  have hdepth := depth_pos_of_wf hwf
  obtain ⟨x, hx⟩ := exists_releasedTrajectory hrst hreset
  obtain ⟨n, hn, hdelivered⟩ := hx.exists_promised_prefix_delivered hdepth htakes hfair N
  rw [(hx.runs N).promised hrst (not_mem_firstMoves hreset N), State.promised_append_answers] at hdelivered
  exact ⟨n, hn, x n, hx.runs n, hdelivered⟩

/-! ### A host that is ready throughout -/

theorem State.Runs.ready_of_steady {s t : State} {ms : List Move} (h : s.Runs ms t) (hrst : s.rst = false)
    (hready : s.ready = true) (hsteady : Steady ms) : t.rst = false ∧ t.ready = true := by
  obtain ⟨hreset, hstop⟩ := hsteady
  exact h.keeps (P := fun u => u.rst = false ∧ u.ready = true) (fun _ _ hu => hu) (fun _ hu => hu)
    (fun _ hm _ _ ⟨hrstu, hreadyu⟩ => takeMove_steady hrstu hreadyu (ne_of_mem_of_not_mem hm hreset)
      (ne_of_mem_of_not_mem hm hstop)) ⟨hrst, hready⟩

/-- For a host that is always ready, weak fairness of the deliver step is that no response waits for ever. -/
theorem HostTakes.of_weaklyFair {s : State} {σ : Nat → Move} (hrst : s.rst = false) (hready : s.ready = true)
    (hsteady : ∀ n, Steady (firstMoves σ n)) (hfair : WeaklyFair s σ State.deliverEnabled .deliver) :
    HostTakes s σ := by
  intro N
  obtain ⟨n, hn, hfairn⟩ := hfair N
  obtain ⟨t, hrun⟩ := State.runs_total (firstMoves σ n) s
  obtain ⟨hrstt, hreadyt⟩ := hrun.ready_of_steady hrst hready (hsteady n)
  refine ⟨n, hn, t, hrun, ?_⟩
  obtain hmove | ⟨t', hrun', hoff⟩ := hfairn
  · exact .inr ⟨hmove, hreadyt⟩
  · obtain rfl := State.runs_unique hrun hrun'
    exact .inl (by simpa [hrstt, hreadyt] using t.deliverEnabled_eq_false_iff.mp hoff)

/-- Settles O52: a host that is always ready is one that takes its responses at its own pace. -/
theorem progressUnderWeakFairness : Obligations.ProgressUnderWeakFairness := by
  unfold Obligations.ProgressUnderWeakFairness
  intro s σ hinv hrst hready hsteady hfairDeliver hfairAccept
  have hreset : ∀ n, σ n ≠ .reset true := by
    intro n hn
    obtain ⟨hno, -⟩ := hsteady (n + 1)
    simp [firstMoves_succ, hn] at hno
  exact progressAtTheHostsPace s σ hinv hrst hreset (.of_weaklyFair hrst hready hsteady hfairDeliver) hfairAccept

end Sys2Proof.Machine
end

section
/-!
Requester programs (R16, R99). The offers of a program depend only on the responses it is given, in order, and
without a reset these are the answers to its own offers: so its offers are fixed, and it can be run to their end.
-/

namespace Sys2Proof.Machine

/-- Where reset is released all that a program is shown is responses. -/
theorem sights_of_released {s t : State} {rs : List Response} (hrst : t.rst = false)
    (hdelivered : t.delivered = s.delivered ++ rs) : sights s t = rs.map .response := by
  simp [sights, hrst, hdelivered]

/-! ### The offers of a program are fixed -/

/-- The offers that a program makes, given these responses. -/
def Program.offersGiven : Program → List Response → List Request
  | .finished, _ => []
  | .offer q rest, rs => q :: rest.offersGiven rs
  | .await _, [] => []
  | .await next, r :: rs => (next (.response r)).offersGiven rs

theorem Program.NothingLeft.offersGiven {p : Program} (h : p.NothingLeft) (rs : List Response) :
    p.offersGiven rs = [] := by
  induction p generalizing rs with
  | finished => rfl
  | offer q rest _ => exact h.elim
  | await next ih =>
    cases rs with
    | nil => rfl
    | cons r rs => exact ih (.response r) (h (.response r)) rs

/-- What is left of a program after it sees a response makes the same offers, since those that it makes before it waits
are still to come. -/
theorem Program.offersGiven_see (p : Program) (r : Response) (rs : List Response) :
    (p.see (.response r)).offersGiven rs = p.offersGiven (r :: rs) := by
  induction p with
  | finished => rfl
  | offer q rest ih => exact congrArg (q :: ·) ih
  | await next _ => rfl

theorem Program.offersGiven_foldl_see (p : Program) (seen rs : List Response) :
    ((seen.map Sight.response).foldl Program.see p).offersGiven rs = p.offersGiven (seen ++ rs) := by
  induction seen generalizing p with
  | nil => rfl
  | cons r seen ih => exact (ih (p.see (.response r))).trans (p.offersGiven_see r (seen ++ rs))

/-- The program makes the offers `offers` when it is given what `s` owes and then the answers to these offers. -/
def Program.Offers (p : Program) (s : State) (offers : List Request) : Prop :=
  p.offersGiven (s.owed ++ answers s.build offers) = offers

theorem State.Runs.owed_of_offer {s u : State} {q : Request} (h : s.Runs [.offer q] u) (hrst : s.rst = false)
    (later : List Request) : u.owed ++ answers u.build later = s.owed ++ answers s.build (q :: later) := by
  obtain rfl := State.runs_unique (State.runs_offer hrst q) h
  simp [State.owed, answers]

/-- An offer moves one request from those to be made to those owed an answer. -/
theorem Program.offers_offer {p : Program} {q : Request} {s u : State} {offers : List Request} (hrst : s.rst = false)
    (hrun : s.Runs [.offer q] u) :
    (Program.offer q p).Offers s offers ↔ ∃ later, offers = q :: later ∧ p.Offers u later := by
  have hoffers : (Program.offer q p).Offers s offers ↔
      q :: p.offersGiven (s.owed ++ answers s.build offers) = offers := Iff.rfl
  rw [hoffers]
  constructor
  · intro h
    refine ⟨p.offersGiven (s.owed ++ answers s.build offers), h.symm, ?_⟩
    rw [Program.Offers, hrun.owed_of_offer hrst, h]
  · rintro ⟨later, rfl, h⟩
    rw [Program.Offers, hrun.owed_of_offer hrst] at h
    rw [h]

/-- A transition without an offer or a reset shows the program the first of the responses owed. -/
theorem Program.offers_other {p : Program} {m : Move} {s u : State} {offers : List Request} (hrst : s.rst = false)
    (hreset : m ≠ .reset true) (hquiet : offersOf [m] = []) (hrun : s.Runs [m] u) :
    p.Offers s offers ↔ ((sights s u).foldl Program.see p).Offers u offers := by
  have hnoReset : Move.reset true ∉ [m] := by simpa using hreset.symm
  obtain ⟨_, hacc⟩ := hrun.acceptedInOrder hrst hnoReset
  obtain ⟨rs, hrs⟩ := hrun.delivered_prefix
  have howed : s.owed = rs ++ u.owed := by
    have hpromised := hacc.promised
    rw [hquiet, State.promised, State.promised, ← hrs, List.append_assoc] at hpromised
    simpa [answers, eq_comm] using hpromised
  rw [sights_of_released (hacc.rst.trans hrst) hrs.symm, Program.Offers, Program.Offers,
    Program.offersGiven_foldl_see, howed, hacc.build, List.append_assoc]

/-- After a run that leaves the program no request to offer, the program's offers are those of the run and no others. -/
theorem Program.Runs.offers_iff {p p' : Program} {s t : State} {ms : List Move} (h : p.Runs s ms p' t)
    (hrst : s.rst = false) (hreset : Move.reset true ∉ ms) (hnone : p'.NothingLeft) (offers : List Request) :
    p.Offers s offers ↔ offers = offersOf ms := by
  induction h generalizing offers with
  | start _ =>
    rw [Program.Offers, hnone.offersGiven]
    exact eq_comm
  | @offer q p p' s u t ms hrun _ ih =>
    obtain ⟨_, hrest⟩ := List.ne_and_not_mem_of_not_mem_cons hreset
    obtain ⟨_, hacc⟩ := hrun.acceptedInOrder hrst (by simp)
    rw [Program.offers_offer hrst hrun, offersOf_cons]
    simp only [ih (hacc.rst.trans hrst) hrest hnone]
    simp [offersOf]
  | @other m p p' s u t ms hquiet hrun _ ih =>
    obtain ⟨hfirst, hrest⟩ := List.ne_and_not_mem_of_not_mem_cons hreset
    obtain ⟨_, hacc⟩ := hrun.acceptedInOrder hrst (by simpa using hfirst)
    rw [Program.offers_other hrst hfirst.symm hquiet hrun, ih (hacc.rst.trans hrst) hrest hnone, offersOf_cons, hquiet,
      List.nil_append]

/-- Settles O54: the offers of either run are the program's, and the observation is fixed by them. -/
theorem programObservationFixed : Obligations.ProgramObservationFixed := by
  unfold Obligations.ProgramObservationFixed
  intro p p₁ p₂ s t₁ t₂ ms₁ ms₂ hrst hreset₁ hreset₂ hrun₁ hrun₂ ⟨hnone₁, hdrained₁⟩ ⟨hnone₂, hdrained₂⟩
  have hmade := (hrun₁.offers_iff hrst hreset₁ hnone₁ _).mpr rfl
  have hoffers := (hrun₂.offers_iff hrst hreset₂ hnone₂ _).mp hmade
  obtain ⟨ht₁, ht₂⟩ := finalObservationFixed s t₁ t₂ ms₁ ms₂ hrst hreset₁ hreset₂ hoffers hrun₁.runs hrun₂.runs
    hdrained₁ hdrained₂
  exact ⟨hoffers, ht₂.symm, ht₁⟩

/-! ### A program can be run to the end of its offers -/

/-- Reset is released, the host is ready, and the unit can hold a request. -/
structure State.Serving (s : State) : Prop where
  rst : s.rst = false
  ready : s.ready = true
  depth : 0 < s.build.depth

/-- Some run of the program without a reset ends drained, where it is finished or waits. -/
def Program.RunsToEnd (p : Program) (s : State) : Prop :=
  ∃ ms p' t, p.Runs s ms p' t ∧ Move.reset true ∉ ms ∧ t.Drained ∧ (p' = .finished ∨ ∃ next, p' = .await next)

/-- Where the program has no offer to make and the state is drained, nothing has to happen. -/
theorem Program.RunsToEnd.of_drained {p : Program} {s : State} (hdrained : s.Drained)
    (hend : p = .finished ∨ ∃ next, p = .await next) : p.RunsToEnd s :=
  ⟨[], p, _, .start (State.runs_nil.mpr rfl), List.not_mem_nil, hdrained, hend⟩

theorem Program.RunsToEnd.of_offer {p : Program} {q : Request} {s u : State} (hrun : s.Runs [.offer q] u)
    (h : p.RunsToEnd u) : (Program.offer q p).RunsToEnd s := by
  obtain ⟨ms, p', t, hrest, hreset, hend⟩ := h
  exact ⟨_, p', t, .offer hrun hrest, by simpa using hreset, hend⟩

theorem Program.RunsToEnd.of_other {p : Program} {m : Move} {s u : State} {rs : List Response}
    (hquiet : offersOf [m] = []) (hm : m ≠ .reset true) (hrun : s.Runs [m] u) (hrst : u.rst = false)
    (hdelivered : u.delivered = s.delivered ++ rs) (h : ((rs.map Sight.response).foldl Program.see p).RunsToEnd u) :
    p.RunsToEnd s := by
  obtain ⟨ms, p', t, hrest, hreset, hend⟩ := h
  rw [← sights_of_released hrst hdelivered] at hrest
  exact ⟨m :: ms, p', t, .other hquiet hrun hrest, by simp [hm.symm, hreset], hend⟩

/-- With a request in flight the deliver step shows the program a response. -/
theorem Program.RunsToEnd.of_inflight {p : Program} {s : State} (hs : s.Serving) (hqueue : s.inflight ≠ [])
    (h : ∀ u r, u.Serving → u.owed.length < s.owed.length → (p.see (.response r)).RunsToEnd u) : p.RunsToEnd s := by
  obtain ⟨q, rest, hq⟩ := List.exists_cons_of_ne_nil hqueue
  refine .of_other rfl (by simp) (State.runs_deliver hs.rst hs.ready hq) hs.rst rfl
    (h _ (answer s.build q) ⟨hs.rst, hs.ready, hs.depth⟩ ?_)
  simp [State.owed, answers, hq]

/-- Where the state is not drained, an accept step, if nothing is in flight, and a deliver step show the program a
response. -/
theorem Program.RunsToEnd.of_not_drained {p : Program} {s : State} (hs : s.Serving) (hdrained : ¬ s.Drained)
    (h : ∀ u r, u.Serving → u.owed.length < s.owed.length → (p.see (.response r)).RunsToEnd u) : p.RunsToEnd s := by
  by_cases hqueue : s.inflight = []
  · obtain ⟨q, rest, hq⟩ := List.exists_cons_of_ne_nil fun hoffered => hdrained ⟨hoffered, hqueue⟩
    refine .of_other (rs := []) rfl (by simp) (State.runs_accept hs.rst (by simpa [hqueue] using hs.depth) hq) hs.rst
      (by simp) (.of_inflight ⟨hs.rst, hs.ready, hs.depth⟩ (by simp) fun u r hu hlt => h u r hu ?_)
    simpa [State.owed, answers, hq] using hlt
  · exact .of_inflight hs hqueue h

theorem Program.finished_runsToEnd {s : State} (hs : s.Serving) : Program.finished.RunsToEnd s := by
  induction hn : s.owed.length using Nat.strong_induction_on generalizing s with
  | _ n ih =>
    by_cases hdrained : s.Drained
    · exact .of_drained hdrained (.inl rfl)
    · exact .of_not_drained hs hdrained fun u r hu hlt => ih _ (hn ▸ hlt) hu rfl

/-- By recursion on the program: it offers what it offers, and waits where there is nothing more to see. -/
theorem Program.runsToEnd (p : Program) {s : State} (hs : s.Serving) : p.RunsToEnd s := by
  induction p generalizing s with
  | finished => exact Program.finished_runsToEnd hs
  | offer q rest ih => exact .of_offer (State.runs_offer hs.rst q) (ih ⟨hs.rst, hs.ready, hs.depth⟩)
  | await next ih =>
    by_cases hdrained : s.Drained
    · exact .of_drained hdrained (.inr ⟨next, rfl⟩)
    · exact .of_not_drained hs hdrained fun u r hu _ => ih (.response r) hu

/-- Settles O55: the run of `Program.runsToEnd`, which is over where the program is finished. -/
theorem programRunsToItsEnd : Obligations.ProgramRunsToItsEnd := by
  unfold Obligations.ProgramRunsToItsEnd
  intro p s ⟨hwf, _, _⟩ hrst hready
  obtain ⟨ms, p', t, hrun, hreset, hdrained, hend⟩ := p.runsToEnd ⟨hrst, hready, depth_pos_of_wf hwf⟩
  refine ⟨ms, p', t, hrun, hreset, hdrained, hend.imp_left ?_⟩
  rintro rfl
  exact ⟨rfl, trivial, hdrained⟩

end Sys2Proof.Machine
end

section
/-!
The decoder and the encoder undo each other (R43, R46, R47): a request is read back from its packet as it was written,
and each op code that is not reserved is the op code of one operation. Then three packets written out, and the
invariant at reset.
-/

namespace Sys2Proof

/-! ### Decoding and encoding are inverse -/

/-- Each operation has its own op code (R46). -/
@[simp] theorem decode_request (i : Instr) : decode i.request = .instr i := by
  cases i with
  | perm src idx => exact decode_of_op_zero rfl
  | permref src idx => exact decode_of_op_one rfl

/-- Nothing of a request is lost in the operation it decodes to: a reserved op code has none, and each of the two
assigned ones keeps both operands. -/
theorem request_of_decode {q : Request} {i : Instr} (h : decode q = .instr i) : i.request = q := by
  obtain ⟨op, idx, src⟩ := q
  by_cases hreserved : 2 ≤ op.toNat
  · rw [decode_of_two_le_op hreserved] at h
    contradiction
  · obtain rfl | rfl := (not_two_le_op_iff op).mp hreserved
    · rw [decode_of_op_zero rfl] at h
      obtain rfl := Decoded.instr.inj h
      rfl
    · rw [decode_of_op_one rfl] at h
      obtain rfl := Decoded.instr.inj h
      rfl

@[simp] theorem decodePacket_encode (i : Instr) : decodePacket (encode i) = .instr i := by
  rw [decodePacket, encode, Request.unpack_pack, decode_request]

/-- Settles O5: the packet gives the request back, and the request its operation. Each operation is well formed. -/
theorem decodeInvertsEncode : Obligations.DecodeInvertsEncode := by
  unfold Obligations.DecodeInvertsEncode
  exact fun i _ => decodePacket_encode i

theorem encode_of_decodePacket {p : ReqPacket} {i : Instr} (h : decodePacket p = .instr i) : encode i = p := by
  rw [encode, request_of_decode h, Request.pack_unpack]

/-- Settles O6: the operation gives the request back, and the request its packet. -/
theorem encodeInvertsDecode : Obligations.EncodeInvertsDecode := by
  unfold Obligations.EncodeInvertsDecode
  exact fun p i h => encode_of_decodePacket h

/-! ### Packets given as numbers -/

/-- A number is read as an operation exactly where it is the number of that operation's packet. -/
theorem decodeTableWord_eq_some_iff (nbits w : Nat) (i : Instr) :
    decodeTableWord nbits w = some i ↔ encode i = packetOfTableWord nbits w := by
  have hread : decodeTableWord nbits w = some i ↔ decodePacket (packetOfTableWord nbits w) = .instr i := by
    unfold decodeTableWord
    cases decodePacket (packetOfTableWord nbits w) <;> simp
  rw [hread]
  exact ⟨encode_of_decodePacket, fun h => h ▸ decodePacket_encode i⟩

/-- A number whose op code is reserved is read as no operation. -/
theorem decodeTableWord_of_two_le_op {nbits w : Nat}
    (h : 2 ≤ (Request.unpack (packetOfTableWord nbits w)).op.toNat) : decodeTableWord nbits w = none := by
  rw [decodeTableWord, decodePacket, decode_of_two_le_op h]

/-- Settles O4: two of the packets are the encoder's, and the op code of the third is reserved. -/
theorem writtenPacketsDecode : Obligations.WrittenPacketsDecode := by
  unfold Obligations.WrittenPacketsDecode
  refine ⟨(decodeTableWord_eq_some_iff ..).mpr ?_, (decodeTableWord_eq_some_iff ..).mpr ?_,
    decodeTableWord_of_two_le_op ?_⟩
  · decide
  · decide
  · decide

end Sys2Proof

/-! ### The invariant at reset (R6, R24, R93) -/

namespace Sys2Proof.Machine

/-- DEPTH is a successor in the default build (R6). -/
theorem build_wf : Config.build.wf = true := decide_eq_true (Nat.succ_pos Config.depthPred)

/-- Settles O44: the default build is well formed, and the queue is empty. -/
theorem invariantAtReset : Obligations.InvariantAtReset := by
  unfold Obligations.InvariantAtReset
  exact ⟨build_wf, Nat.zero_le _, fun _ => State.reset_inflight⟩

end Sys2Proof.Machine
end
